-- ==== Sys2Proof/Word.lean ====
section
/-! DEFINITION. The word types of the CHIP-8 core (00_scope.md R7, R9, R10): every value is unsigned. -/

namespace Sys2Proof

/-- One byte: a general register, a timer, a memory cell (R7 `REG_W`, `TIMER_W`). -/
abbrev Byte := BitVec 8

/-- An instruction word (30_encoding.md R43). -/
abbrev Word := BitVec 16

/-- The 16-bit registers that hold addresses: `I`, `pc` and a stack entry (R7 `I_W`, `PC_W`, `STACK_W`). -/
abbrev Addr := BitVec 16

/-- A 12-bit address operand `nnn` (30_encoding.md R46). -/
abbrev Addr12 := BitVec 12

/-- The index of a general register, 0 to 15 (10_state.md R16, 30_encoding.md R46). -/
abbrev Reg := Fin 16

/-- The index of a key, 0x0 to 0xF (10_state.md R26). -/
abbrev Key := Fin 16

/-- The display buffer, indexed column first as the spec writes it: `disp[c][r]` (10_state.md R25). -/
abbrev Display := Vector (Vector Bool 32) 64

/-- VF, the flag register (10_state.md R17). -/
abbrev VF : Reg := 15

end Sys2Proof
end

