-- ==== Sys2Proof/Syntax.lean ====
section
/-! DEFINITION. The 34 instructions of 30_encoding.md R47, one constructor a row. Operands are strongly typed, as R46
has them: register indices, 8-bit immediates, 12-bit addresses; the sprite height is a count, whose bound
WellFormed.lean checks. -/

namespace Sys2Proof

/-- The instruction set (30_encoding.md R47, R48; the rows of spec/opcode_table.json). -/
inductive Instr where
  /-- `CLS`, 00E0 (R91). -/
  | cls
  /-- `RET`, 00EE (R63). -/
  | ret
  /-- `JP nnn`, 1nnn (R64). -/
  | jp (nnn : Addr12)
  /-- `CALL nnn`, 2nnn (R65). -/
  | call (nnn : Addr12)
  /-- `SE Vx, nn`, 3xkk (R66). -/
  | seImm (x : Reg) (nn : Byte)
  /-- `SNE Vx, nn`, 4xkk (R67). -/
  | sneImm (x : Reg) (nn : Byte)
  /-- `SE Vx, Vy`, 5xy0 (R68). -/
  | seReg (x y : Reg)
  /-- `LD Vx, nn`, 6xkk (R72). -/
  | ldImm (x : Reg) (nn : Byte)
  /-- `ADD Vx, nn`, 7xkk (R73). -/
  | addImm (x : Reg) (nn : Byte)
  /-- `LD Vx, Vy`, 8xy0 (R74). -/
  | ldReg (x y : Reg)
  /-- `OR Vx, Vy`, 8xy1 (R75). -/
  | orReg (x y : Reg)
  /-- `AND Vx, Vy`, 8xy2 (R76). -/
  | andReg (x y : Reg)
  /-- `XOR Vx, Vy`, 8xy3 (R77). -/
  | xorReg (x y : Reg)
  /-- `ADD Vx, Vy`, 8xy4 (R78). -/
  | addReg (x y : Reg)
  /-- `SUB Vx, Vy`, 8xy5 (R79). -/
  | subReg (x y : Reg)
  /-- `SHR Vx`, 8xy6 (R80). The ignored `y` field is an operand (R45), so that no bit of the word is lost. -/
  | shr (x y : Reg)
  /-- `SUBN Vx, Vy`, 8xy7 (R81). -/
  | subnReg (x y : Reg)
  /-- `SHL Vx`, 8xyE (R82). The ignored `y` field is an operand (R45), so that no bit of the word is lost. -/
  | shl (x y : Reg)
  /-- `SNE Vx, Vy`, 9xy0 (R69). -/
  | sneReg (x y : Reg)
  /-- `LD I, nnn`, Annn (R85). -/
  | ldI (nnn : Addr12)
  /-- `JP V0, nnn`, Bnnn (R70). -/
  | jpV0 (nnn : Addr12)
  /-- `RND Vx, nn`, Cxkk (R99). -/
  | rnd (x : Reg) (nn : Byte)
  /-- `DRW Vx, Vy, n`, Dxyn (R92). -/
  | drw (x y : Reg) (n : Nat)
  /-- `SKP Vx`, Ex9E (R93). -/
  | skp (x : Reg)
  /-- `SKNP Vx`, ExA1 (R94). -/
  | sknp (x : Reg)
  /-- `LD Vx, DT`, Fx07 (R96). -/
  | ldVxDT (x : Reg)
  /-- `LD Vx, K`, Fx0A (R95). -/
  | ldVxK (x : Reg)
  /-- `LD DT, Vx`, Fx15 (R97). -/
  | ldDT (x : Reg)
  /-- `LD ST, Vx`, Fx18 (R98). -/
  | ldST (x : Reg)
  /-- `ADD I, Vx`, Fx1E (R86). -/
  | addI (x : Reg)
  /-- `LD F, Vx`, Fx29 (R87). -/
  | ldF (x : Reg)
  /-- `LD B, Vx`, Fx33 (R88). -/
  | ldB (x : Reg)
  /-- `LD [I], Vx`, Fx55 (R89). -/
  | stRegs (x : Reg)
  /-- `LD Vx, [I]`, Fx65 (R90). -/
  | ldRegs (x : Reg)
deriving DecidableEq, Repr

end Sys2Proof
end

