-- ==== Sys2Proof/Decode.lean ====
section
/-! DEFINITION. The decoder of 30_encoding.md R48, total on every word and rejecting by name; after it the encoder,
written from the formats of R45 and the table of R47, and the table itself. -/

namespace Sys2Proof

/-- What the decoder answers: an instruction with its operands, or `InvalidOpcode` with the raw word (R48). -/
inductive Decoded where
  | instr (i : Instr)
  | invalidOpcode (op : Word)
deriving DecidableEq, Repr

/-- The instruction of an answer, if there is one. -/
def Decoded.toOption : Decoded → Option Instr
  | .instr i => some i
  | .invalidOpcode _ => none

/-! ### Fields (00_scope.md R9, 30_encoding.md R44) -/

/-- `op[15:12]`, the group nibble. -/
def fieldG (op : Word) : BitVec 4 := op.extractLsb' 12 4

/-- `op[11:8]`, the first register index. -/
def fieldX (op : Word) : Reg := (op.extractLsb' 8 4).toFin

/-- `op[7:4]`, the second register index. -/
def fieldY (op : Word) : Reg := (op.extractLsb' 4 4).toFin

/-- `op[3:0]`, the low nibble. -/
def fieldN (op : Word) : BitVec 4 := op.extractLsb' 0 4

/-- `op[7:0]`, the low byte. -/
def fieldNN (op : Word) : Byte := op.extractLsb' 0 8

/-- `op[11:0]`, the address operand. -/
def fieldNNN (op : Word) : Addr12 := op.extractLsb' 0 12

/-- The byte at `pc` is `op[15:8]`, the byte at `pc+1` is `op[7:0]` (20_memory.md R34). -/
def joinBytes (hi lo : Byte) : Word := hi ++ lo

/-- `op[15:8]`, the byte stored at the lower address. -/
def highByte (op : Word) : Byte := op.extractLsb' 8 8

/-- `op[7:0]`, the byte stored at the higher address. -/
def lowByte (op : Word) : Byte := op.extractLsb' 0 8

/-! ### The decoder (R48) -/

/-- Group 0: only 00E0 and 00EE; there is no `SYS` (R48, R49, D9). -/
def decodeGroup0 (op : Word) : Decoded :=
  if op = 0x00E0#16 then .instr .cls
  else if op = 0x00EE#16 then .instr .ret
  else .invalidOpcode op

/-- Group 8 splits on the final nibble into nine instructions (R48, C1). -/
def decodeGroup8 (op : Word) : Decoded :=
  match (fieldN op).toNat with
  | 0x0 => .instr (.ldReg (fieldX op) (fieldY op))
  | 0x1 => .instr (.orReg (fieldX op) (fieldY op))
  | 0x2 => .instr (.andReg (fieldX op) (fieldY op))
  | 0x3 => .instr (.xorReg (fieldX op) (fieldY op))
  | 0x4 => .instr (.addReg (fieldX op) (fieldY op))
  | 0x5 => .instr (.subReg (fieldX op) (fieldY op))
  | 0x6 => .instr (.shr (fieldX op) (fieldY op))
  | 0x7 => .instr (.subnReg (fieldX op) (fieldY op))
  | 0xE => .instr (.shl (fieldX op) (fieldY op))
  | _ => .invalidOpcode op

/-- Group E splits on the final byte (R48). -/
def decodeGroupE (op : Word) : Decoded :=
  if fieldNN op = 0x9E#8 then .instr (.skp (fieldX op))
  else if fieldNN op = 0xA1#8 then .instr (.sknp (fieldX op))
  else .invalidOpcode op

/-- Group F splits on the final byte (R48). -/
def decodeGroupF (op : Word) : Decoded :=
  if fieldNN op = 0x07#8 then .instr (.ldVxDT (fieldX op))
  else if fieldNN op = 0x0A#8 then .instr (.ldVxK (fieldX op))
  else if fieldNN op = 0x15#8 then .instr (.ldDT (fieldX op))
  else if fieldNN op = 0x18#8 then .instr (.ldST (fieldX op))
  else if fieldNN op = 0x1E#8 then .instr (.addI (fieldX op))
  else if fieldNN op = 0x29#8 then .instr (.ldF (fieldX op))
  else if fieldNN op = 0x33#8 then .instr (.ldB (fieldX op))
  else if fieldNN op = 0x55#8 then .instr (.stRegs (fieldX op))
  else if fieldNN op = 0x65#8 then .instr (.ldRegs (fieldX op))
  else .invalidOpcode op

/-- The decoder: dispatch on the group nibble (R48). Groups 5 and 9 need a final nibble 0 (R49, D10). -/
def decode (op : Word) : Decoded :=
  match (fieldG op).toNat with
  | 0x0 => decodeGroup0 op
  | 0x1 => .instr (.jp (fieldNNN op))
  | 0x2 => .instr (.call (fieldNNN op))
  | 0x3 => .instr (.seImm (fieldX op) (fieldNN op))
  | 0x4 => .instr (.sneImm (fieldX op) (fieldNN op))
  | 0x5 => if fieldN op = 0#4 then .instr (.seReg (fieldX op) (fieldY op)) else .invalidOpcode op
  | 0x6 => .instr (.ldImm (fieldX op) (fieldNN op))
  | 0x7 => .instr (.addImm (fieldX op) (fieldNN op))
  | 0x8 => decodeGroup8 op
  | 0x9 => if fieldN op = 0#4 then .instr (.sneReg (fieldX op) (fieldY op)) else .invalidOpcode op
  | 0xA => .instr (.ldI (fieldNNN op))
  | 0xB => .instr (.jpV0 (fieldNNN op))
  | 0xC => .instr (.rnd (fieldX op) (fieldNN op))
  | 0xD => .instr (.drw (fieldX op) (fieldY op) (fieldN op).toNat)
  | 0xE => decodeGroupE op
  | 0xF => decodeGroupF op
  | _ => .invalidOpcode op

/-- The decoder on bytes as memory holds them: the first two, high byte first (R43, 20_memory.md R34), with the bytes
after them. None when there are fewer than two. -/
def decodeBytes : List Byte → Option (Decoded × List Byte)
  | hi :: lo :: rest => some (decode (joinBytes hi lo), rest)
  | _ => none

/-! ### The encoder (R45, R47) -/

/-- A register index as its 4-bit field. -/
def regBits (r : Reg) : BitVec 4 := BitVec.ofFin r

/-- Format FA: `gggg aaaa aaaa aaaa`. -/
def formatFA (g : BitVec 4) (nnn : Addr12) : Word := g ++ nnn

/-- Format FXK: `gggg xxxx kkkk kkkk`; also format FX, whose `k` is a fixed sub-opcode. -/
def formatFXK (g : BitVec 4) (x : Reg) (k : Byte) : Word := g ++ regBits x ++ k

/-- Format FXY: `gggg xxxx yyyy ffff`; also format FXYN, whose `f` is the operand `n`. -/
def formatFXY (g : BitVec 4) (x y : Reg) (f : BitVec 4) : Word := g ++ regBits x ++ regBits y ++ f

/-- The word of an instruction (R47). Of an ill-formed DRW it is the word of the height's low four bits. -/
def encode : Instr → Word
  | .cls => 0x00E0#16
  | .ret => 0x00EE#16
  | .jp nnn => formatFA 0x1#4 nnn
  | .call nnn => formatFA 0x2#4 nnn
  | .seImm x nn => formatFXK 0x3#4 x nn
  | .sneImm x nn => formatFXK 0x4#4 x nn
  | .seReg x y => formatFXY 0x5#4 x y 0x0#4
  | .ldImm x nn => formatFXK 0x6#4 x nn
  | .addImm x nn => formatFXK 0x7#4 x nn
  | .ldReg x y => formatFXY 0x8#4 x y 0x0#4
  | .orReg x y => formatFXY 0x8#4 x y 0x1#4
  | .andReg x y => formatFXY 0x8#4 x y 0x2#4
  | .xorReg x y => formatFXY 0x8#4 x y 0x3#4
  | .addReg x y => formatFXY 0x8#4 x y 0x4#4
  | .subReg x y => formatFXY 0x8#4 x y 0x5#4
  | .shr x y => formatFXY 0x8#4 x y 0x6#4
  | .subnReg x y => formatFXY 0x8#4 x y 0x7#4
  | .shl x y => formatFXY 0x8#4 x y 0xE#4
  | .sneReg x y => formatFXY 0x9#4 x y 0x0#4
  | .ldI nnn => formatFA 0xA#4 nnn
  | .jpV0 nnn => formatFA 0xB#4 nnn
  | .rnd x nn => formatFXK 0xC#4 x nn
  | .drw x y n => formatFXY 0xD#4 x y (BitVec.ofNat 4 n)
  | .skp x => formatFXK 0xE#4 x 0x9E#8
  | .sknp x => formatFXK 0xE#4 x 0xA1#8
  | .ldVxDT x => formatFXK 0xF#4 x 0x07#8
  | .ldVxK x => formatFXK 0xF#4 x 0x0A#8
  | .ldDT x => formatFXK 0xF#4 x 0x15#8
  | .ldST x => formatFXK 0xF#4 x 0x18#8
  | .addI x => formatFXK 0xF#4 x 0x1E#8
  | .ldF x => formatFXK 0xF#4 x 0x29#8
  | .ldB x => formatFXK 0xF#4 x 0x33#8
  | .stRegs x => formatFXK 0xF#4 x 0x55#8
  | .ldRegs x => formatFXK 0xF#4 x 0x65#8

/-! ### The table of R47, independent of the decoder above -/

/-- One row of R47: a word is this instruction when `op & mask == pattern`. -/
structure TableRow where
  mask : Word
  pattern : Word
deriving DecidableEq, Repr

/-- `op & mask == match` (R47). -/
def TableRow.accepts (row : TableRow) (op : Word) : Bool := op &&& row.mask == row.pattern

/-- The row of R47 an instruction stands in. -/
def Instr.tableRow : Instr → TableRow
  | .cls => ⟨0xFFFF, 0x00E0⟩
  | .ret => ⟨0xFFFF, 0x00EE⟩
  | .jp _ => ⟨0xF000, 0x1000⟩
  | .call _ => ⟨0xF000, 0x2000⟩
  | .seImm _ _ => ⟨0xF000, 0x3000⟩
  | .sneImm _ _ => ⟨0xF000, 0x4000⟩
  | .seReg _ _ => ⟨0xF00F, 0x5000⟩
  | .ldImm _ _ => ⟨0xF000, 0x6000⟩
  | .addImm _ _ => ⟨0xF000, 0x7000⟩
  | .ldReg _ _ => ⟨0xF00F, 0x8000⟩
  | .orReg _ _ => ⟨0xF00F, 0x8001⟩
  | .andReg _ _ => ⟨0xF00F, 0x8002⟩
  | .xorReg _ _ => ⟨0xF00F, 0x8003⟩
  | .addReg _ _ => ⟨0xF00F, 0x8004⟩
  | .subReg _ _ => ⟨0xF00F, 0x8005⟩
  | .shr _ _ => ⟨0xF00F, 0x8006⟩
  | .subnReg _ _ => ⟨0xF00F, 0x8007⟩
  | .shl _ _ => ⟨0xF00F, 0x800E⟩
  | .sneReg _ _ => ⟨0xF00F, 0x9000⟩
  | .ldI _ => ⟨0xF000, 0xA000⟩
  | .jpV0 _ => ⟨0xF000, 0xB000⟩
  | .rnd _ _ => ⟨0xF000, 0xC000⟩
  | .drw _ _ _ => ⟨0xF000, 0xD000⟩
  | .skp _ => ⟨0xF0FF, 0xE09E⟩
  | .sknp _ => ⟨0xF0FF, 0xE0A1⟩
  | .ldVxDT _ => ⟨0xF0FF, 0xF007⟩
  | .ldVxK _ => ⟨0xF0FF, 0xF00A⟩
  | .ldDT _ => ⟨0xF0FF, 0xF015⟩
  | .ldST _ => ⟨0xF0FF, 0xF018⟩
  | .addI _ => ⟨0xF0FF, 0xF01E⟩
  | .ldF _ => ⟨0xF0FF, 0xF029⟩
  | .ldB _ => ⟨0xF0FF, 0xF033⟩
  | .stRegs _ => ⟨0xF0FF, 0xF055⟩
  | .ldRegs _ => ⟨0xF0FF, 0xF065⟩

/-- The table of R47, its 34 rows in its order, each named by an instruction of that row. -/
def opcodeTable : List TableRow :=
  [.cls, .ret, .jp 0, .call 0, .seImm 0 0, .sneImm 0 0, .seReg 0 0, .ldImm 0 0, .addImm 0 0, .ldReg 0 0, .orReg 0 0,
    .andReg 0 0, .xorReg 0 0, .addReg 0 0, .subReg 0 0, .shr 0 0, .subnReg 0 0, .shl 0 0].map Instr.tableRow ++
  [.sneReg 0 0, .ldI 0, .jpV0 0, .rnd 0 0, .drw 0 0 0, .skp 0, .sknp 0, .ldVxDT 0, .ldVxK 0, .ldDT 0, .ldST 0,
    .addI 0, .ldF 0, .ldB 0, .stRegs 0, .ldRegs 0].map Instr.tableRow

/-- The host's reading of a table word: bit 0 of `w` is the least significant bit of the one 16-bit word, bits above
`nbits` are 0; the word is laid out as memory holds it, high byte first, and given to the decoder. -/
def decodeTableWord (nbits w : Nat) : Option Instr :=
  let op : Word := BitVec.ofNat 16 (w % 2 ^ nbits)
  (decode (joinBytes (highByte op) (lowByte op))).toOption

end Sys2Proof
end

