-- ==== Sys2Proof/Machine/Flags.lean ====
section
/-! DEFINITION. Every flag value the spec writes into VF (10_state.md R18). Each is the byte 0 or 1. -/

namespace Sys2Proof.Machine

/-- A flag as the byte VF holds. -/
def flagByte (b : Bool) : Byte := if b then 1 else 0

/-- Carry of `ADD Vx, Vy`: 1 iff `a + b > 255` (42_alu.md R78). -/
def carryFlag (a b : Byte) : Byte := flagByte (decide (a.toNat + b.toNat > 255))

/-- Not-borrow of `a - b`: 0 iff `a < b`, compared before the subtraction (R79, R81). -/
def notBorrowFlag (a b : Byte) : Byte := flagByte (decide (¬ a.toNat < b.toNat))

/-- The bit `SHR` shifts out: bit 0 before the shift (R80). -/
def shiftedOutRight (a : Byte) : Byte := a &&& 1

/-- The bit `SHL` shifts out: bit 7 before the shift (R82). -/
def shiftedOutLeft (a : Byte) : Byte := (a >>> 7) &&& 1

/-- Collision of `DRW`: 1 iff a set pixel was turned off (44_display.md R92). -/
def collisionFlag (collision : Bool) : Byte := flagByte collision

end Sys2Proof.Machine
end

