-- ==== Sys2Proof/Config.lean ====
section
/-! DEFINITION. What the spec fixes for this core (00_scope.md R7) and the three parameters it leaves open (R8): the
font, taken at the spec's default table, and the two free values, which have no body. -/

namespace Sys2Proof.Config

/-- `MEM_SIZE` (R7). -/
abbrev memSize : Nat := 4096

/-- `PC_MAX`, the highest address a fetch may start at (R7). -/
abbrev pcMax : Nat := 0x0FFE

/-- `STACK_DEPTH` (R7). -/
abbrev stackDepth : Nat := 16

/-- `PROG_BASE`, the reset pc and the load address (R7). -/
abbrev progBase : Nat := 0x200

/-- `PROG_MAX`, the largest loadable program: 4096 − 512 (R7). -/
abbrev progMax : Nat := 3584

/-- `FONT_BASE` (R7). -/
abbrev fontBase : Nat := 0x000

/-- `GLYPH_BYTES` (R7). -/
abbrev glyphBytes : Nat := 5

/-- Glyphs 0 to 7 of the default font (70_reset_and_hazards.md R116). -/
def glyphsLow : List (List Byte) :=
  [[0xF0, 0x90, 0x90, 0x90, 0xF0], [0x20, 0x60, 0x20, 0x20, 0x70],
   [0xF0, 0x10, 0xF0, 0x80, 0xF0], [0xF0, 0x10, 0xF0, 0x10, 0xF0],
   [0x90, 0x90, 0xF0, 0x10, 0x10], [0xF0, 0x80, 0xF0, 0x10, 0xF0],
   [0xF0, 0x80, 0xF0, 0x90, 0xF0], [0xF0, 0x10, 0x20, 0x40, 0x40]]

/-- Glyphs 8 to F of the default font (70_reset_and_hazards.md R116). -/
def glyphsHigh : List (List Byte) :=
  [[0xF0, 0x90, 0xF0, 0x90, 0xF0], [0xF0, 0x90, 0xF0, 0x10, 0xF0],
   [0xF0, 0x90, 0xF0, 0x90, 0x90], [0xE0, 0x90, 0xE0, 0x90, 0xE0],
   [0xF0, 0x80, 0x80, 0x80, 0xF0], [0xE0, 0x90, 0x90, 0x90, 0xE0],
   [0xF0, 0x80, 0xF0, 0x80, 0xF0], [0xF0, 0x80, 0xF0, 0x80, 0x80]]

/-- The parameter `FONT` at the spec's default: the 80 bytes at addresses 0 to 79 (R8, R116, D22).
DESIGN CHOICE (log entry 1), unsafe for a claim about the pixels of a glyph. -/
def font : List Byte := (glyphsLow ++ glyphsHigh).flatten

/-- The parameter `RNG` (R8, D21): the byte of the k-th draw. A FREE VALUE: any byte, under no law (log entry 2). -/
opaque randomByte : Nat → Byte

/-- The parameter `KEYWAIT` (R8, D18, D20): the answer to the k-th key wait that is answered. A FREE VALUE: any key
0 to 15 (log entry 3). Whether the provider answers at all is `State.keyProvider` (log entry 4). -/
opaque keyAnswer : Nat → Key

end Sys2Proof.Config
end

