-- ==== Sys2Proof/Machine/Operands.lean ====
section
/-! DEFINITION. The operand forms: results of the 8-bit ALU, jump targets, index values, digits and ranges, each
computed exactly in natural numbers and narrowed once (00_scope.md R10). -/

namespace Sys2Proof.Machine

/-- `zext_16(nnn)` (30_encoding.md R46). -/
def zext16 (nnn : Addr12) : Addr := BitVec.ofNat 16 nnn.toNat

/-- `zext_16(nnn) + V[0]`, at most 0x10FE, so never wrapped (41_control.md R70). -/
def indexedTarget (nnn : Addr12) (v0 : Byte) : Addr := BitVec.ofNat 16 (nnn.toNat + v0.toNat)

/-- `(a + b) mod 256` (42_alu.md R73, R78). -/
def sum8 (a b : Byte) : Byte := BitVec.ofNat 8 ((a.toNat + b.toNat) % 256)

/-- `(a - b) mod 256`, that is `(a + 256 - b) mod 256` (R79). -/
def diff8 (a b : Byte) : Byte := BitVec.ofNat 8 ((a.toNat + 256 - b.toNat) % 256)

/-- `a >> 1`, a logical shift (R80). -/
def shiftRight1 (a : Byte) : Byte := a >>> 1

/-- `(a << 1) mod 256` (R82). -/
def shiftLeft1 (a : Byte) : Byte := a <<< 1

/-- `(I + V[x]) mod 65536` (43_index_memory.md R86). -/
def indexSum (i : Addr) (v : Byte) : Addr := BitVec.ofNat 16 ((i.toNat + v.toNat) % 65536)

/-- `FONT_BASE + v * 5`, the address of glyph v (R87). -/
def glyphAddress (v : Byte) : Addr := BitVec.ofNat 16 (Config.fontBase + v.toNat * Config.glyphBytes)

/-- The decimal digits `v / 100`, `(v / 10) % 10`, `v % 10` (R88). -/
def bcdDigits (v : Byte) : List Byte :=
  [BitVec.ofNat 8 (v.toNat / 100), BitVec.ofNat 8 (v.toNat / 10 % 10), BitVec.ofNat 8 (v.toNat % 10)]

/-- The access `[base, base+len-1]` lies in 0x000–0xFFF; no access when `len = 0` (20_memory.md R33). -/
def inMemory (base : Addr) (len : Nat) : Bool := decide (len = 0 ∨ base.toNat + len ≤ Config.memSize)

/-- A register's value as a key or glyph index: below 16 (R87, R93, R94). -/
def isHexDigit (v : Byte) : Bool := decide (v.toNat < 16)

/-- The key a register value names; for a value above 15 the callers raise an error first (R93, R94). -/
def keyOf (v : Byte) : Key := Fin.ofNat 16 v.toNat

end Sys2Proof.Machine
end

