-- ==== Sys2Proof/Machine/State.lean ====
section
/-! DEFINITION. The machine's state as plain data (10_state.md R14), the reasons a cycle can stop, and the state after
`new()` (70_reset_and_hazards.md R115). -/

namespace Sys2Proof.Machine

/-- The memory array (10_state.md R24) in one canonical form: addresses strictly rising, no entry equal to what an
unlisted address reads as (`Memory.background`, the reset contents). -/
abbrev Memory := List Host.Cell

/-- The core's state: the record of R14, field for field, and nothing else. -/
structure CoreState where
  /-- The memory array (R24). -/
  mem : Memory
  /-- V0 to VF; VF is also the flag register (R16, R17). -/
  V : Vector Byte 16
  /-- The index register (R19). -/
  I : Addr
  /-- The program counter (R20). -/
  pc : Addr
  /-- The call stack; its last element is the top (R14, R23). -/
  stack : List Addr
  /-- The delay timer (R22). -/
  DT : Byte
  /-- The sound timer (R22). -/
  ST : Byte
  /-- The display buffer, `disp[c][r]` (R25). -/
  disp : Display
  /-- The keypad latch (R26). -/
  keys : Vector Bool 16
deriving DecidableEq, Repr

/-- Whether the key-wait provider the host binds to the core answers (R95, D20). The MODEL's own type: log entry 4. -/
inductive KeyProvider where
  /-- The provider answers; its answers are the free values `Config.keyAnswer`. -/
  | answers
  /-- The provider never answers: the cycle has no step. -/
  | silent
deriving DecidableEq, Repr

/-- What stands outside the core (R15): where a step's two draws come from and where its output goes. The MODEL's own
record, no state of the core (log entry 17): Laws/Cycle.lean proves that nothing of it reaches the core but the draws. -/
structure Environment where
  /-- The tone the host was handed by the last completed cycle (R27); the core keeps no copy (R15). Log entry 5. -/
  tone : Bool
  /-- The key-wait provider bound to the core. Log entry 4. -/
  keyProvider : KeyProvider
  /-- How many key waits were answered; makes each answer a fresh free value. Log entry 3. -/
  keyWaits : Nat
  /-- How many random bytes were drawn; makes each byte a fresh free value. Log entry 2. -/
  rndDraws : Nat
deriving DecidableEq, Repr

/-- The core in its environment: what the host's `step`, which has no slot for draws and outputs, runs on. -/
structure State extends CoreState, Environment
deriving DecidableEq, Repr

/-- The two draws a cycle may make (R61), as the parameters of a step R15 asks for: the byte `RND` draws and the
key-wait provider's answer, none while it does not answer (D20, D21). -/
structure Draws where
  rnd : Byte
  key : Option Key
deriving DecidableEq, Repr

/-- The cycle errors of 60_exceptions.md R100. Each is a fault outcome: the state stays as it was (R101), and a run that
reaches one has gone wrong (R102). Safe: where a real core went on, the model stops. -/
inductive Fault where
  /-- Code 1. Raised by decode for every word of R49; carries the word. Safe. -/
  | invalidOpcode (op : Word)
  /-- Code 2. Raised by `RET` with an empty stack (R63). Safe. -/
  | stackUnderflow
  /-- Code 3. Raised by `CALL` with 16 entries on the stack (R65). Safe. -/
  | stackOverflow
  /-- Code 6. Raised by the fetch when `pc > 0x0FFE` (R54, D4). Safe. -/
  | pcOutOfRange (pc : Addr)
  /-- Code 7. Raised by `DRW`, `LD B, Vx`, `LD [I], Vx` and `LD Vx, [I]` reaching past 0xFFF (R33, D6). Safe. -/
  | memoryOutOfRange (i : Addr) (len : Nat)
  /-- Code 8. Raised by `LD F, Vx` with `V[x] > 15` (R87, D14). Safe. -/
  | glyphOutOfRange (v : Byte)
  /-- Code 9. Raised by `SKP` and `SKNP` with `V[x] > 15` (R93, R94, D15). Safe. -/
  | keyOperandOutOfRange (v : Byte)
deriving DecidableEq, Repr

/-- Why a cycle has no successor that is neither a state nor a cycle error. -/
inductive Refusal where
  /-- An instruction without a meaning, refused in exec's arm; no arm does so now. Safe. -/
  | notModelled (mnemonic : String)
  /-- Raised by `LD Vx, K` while the provider does not answer: the core is stuck, "not faulted and not finished"
  (R95, D20). Safe: nothing is claimed of a cycle that does not return. -/
  | keyWaitSuspended
deriving DecidableEq, Repr

/-- The state after `new()` (R115): the font and zeros in memory, which is what unlisted addresses read as, `pc` at
0x200, everything else zero, empty or false; and the environment's four fields at the values of log entries 2 to 5. -/
def State.reset : State where
  mem := []
  V := Vector.replicate 16 0
  I := 0
  pc := 0x200
  stack := []
  DT := 0
  ST := 0
  disp := Vector.replicate 64 (Vector.replicate 32 false)
  keys := Vector.replicate 16 false
  tone := false
  keyProvider := .answers
  keyWaits := 0
  rndDraws := 0

end Sys2Proof.Machine
end

