-- ==== Sys2Proof/Machine/Ops.lean ====
section
/-! DEFINITION. The named operations every meaning is made of: memory, registers, the program counter, the stack, the
display, the fetch, the timer tick, and raising an error. -/

namespace Sys2Proof.Machine

/-- What executing one instruction, or one cycle, ends in. -/
abbrev Result := Host.Outcome State Fault Refusal

/-- Ending a cycle with an error. This is all the core does on an error: it saves nothing, changes no mode, goes to no
handler and changes no state (60_exceptions.md R101, R104); there is no return from an error (R105). -/
def raise (e : Fault) : Result := .fault e

/-! ### Memory (20_memory.md) -/

/-- What an address nothing has written reads as: the contents after `new()`, the font at 0 to 79 and zero elsewhere
(70_reset_and_hazards.md R115). -/
def Memory.background (a : Nat) : Byte := Config.font.getD a 0

/-- The byte at an address (R36: plain storage, no read side effect). -/
def Memory.read : Memory → Nat → Byte
  | [], a => Memory.background a
  | (k, v) :: rest, a => if k = a then v else Memory.read rest a

/-- An entry in front of a memory whose addresses are all higher, left out when it says what an unlisted address says. -/
def Memory.cons (a : Nat) (b : Byte) (rest : Memory) : Memory :=
  if b = Memory.background a then rest else (a, b) :: rest

/-- Writing one byte, which keeps the canonical form. -/
def Memory.write : Memory → Nat → Byte → Memory
  | [], a, b => Memory.cons a b []
  | (k, v) :: rest, a, b =>
    if k < a then (k, v) :: Memory.write rest a b
    else if k = a then Memory.cons a b rest
    else Memory.cons a b ((k, v) :: rest)

/-- Writing bytes at ascending addresses (R36). -/
def Memory.writeBytes (m : Memory) (a : Nat) : List Byte → Memory
  | [] => m
  | b :: bs => Memory.writeBytes (m.write a b) (a + 1) bs

/-- Reading `n` bytes at ascending addresses (R36). -/
def Memory.readBytes (m : Memory) (a : Nat) : Nat → List Byte
  | 0 => []
  | n + 1 => m.read a :: Memory.readBytes m (a + 1) n

/-- The canonical form: addresses strictly rising, inside the 4096-byte address space, no entry equal to the background. -/
abbrev Memory.wf (m : Memory) : Prop :=
  m.Pairwise (fun c d => c.1 < d.1) ∧ ∀ c ∈ m, c.1 < 4096 ∧ c.2 ≠ Memory.background c.1

/-! ### Registers (10_state.md R16 to R23) -/

/-- `V[x]`: no register is hard-wired, banked or aliased (R16). -/
def State.readV (s : State) (x : Reg) : Byte := s.V[x]

/-- `V[x] <- b`. -/
def State.writeV (s : State) (x : Reg) (b : Byte) : State := { s with V := s.V.set x b }

/-- A result to `V[x]` first and a flag to VF second, so that VF ends as the flag (42_alu.md R71, D3). -/
def State.writeResultFlag (s : State) (x : Reg) (result flag : Byte) : State := (s.writeV x result).writeV VF flag

/-- V0 to Vx, in order. -/
def State.regsUpTo (s : State) (x : Reg) : List Byte := s.V.toList.take (x.val + 1)

/-- V0 to Vx loaded from memory at `base`, the registers above Vx unchanged (43_index_memory.md R90). -/
def State.loadRegs (s : State) (base : Nat) (x : Reg) : State :=
  { s with V := Vector.ofFn fun r : Reg => if r.val ≤ x.val then s.mem.read (base + r.val) else s.V[r] }

/-- `I <- a`. -/
def State.setI (s : State) (a : Addr) : State := { s with I := a }

/-- `pc <- target`. -/
def State.setPc (s : State) (target : Addr) : State := { s with pc := target }

/-- The ordinary advance, `pc + 2` (40_cycle.md R55). -/
def State.advance (s : State) : State := s.setPc (s.pc + 2)

/-- A conditional skip: `pc + 4` if the condition holds, else `pc + 2` (R55). -/
def State.skipIf (s : State) (cond : Bool) : State := s.setPc (s.pc + if cond then 4 else 2)

/-- `DT <- v`. -/
def State.setDT (s : State) (v : Byte) : State := { s with DT := v }

/-- `ST <- v`. -/
def State.setST (s : State) (v : Byte) : State := { s with ST := v }

/-- The stack replaced. -/
def State.setStack (s : State) (stack : List Addr) : State := { s with stack := stack }

/-- `Push(a)`: append to the top, which is the last element (R11, R14). -/
def State.push (s : State) (a : Addr) : State := s.setStack (s.stack ++ [a])

/-- Memory replaced. -/
def State.setMem (s : State) (m : Memory) : State := { s with mem := m }

/-- The display replaced. -/
def State.setDisp (s : State) (d : Display) : State := { s with disp := d }

/-- The keypad latch replaced (the host's alone, R26). -/
def State.setKeys (s : State) (keys : Vector Bool 16) : State := { s with keys := keys }


/-- The key-wait provider replaced (the host's alone; log entry 4). -/
def State.setKeyProvider (s : State) (p : KeyProvider) : State := { s with keyProvider := p }

/-- One random byte used (log entry 2). -/
def State.countDraw (s : State) : State := { s with rndDraws := s.rndDraws + 1 }

/-- One key-wait answer used (log entry 3). -/
def State.countKeyWait (s : State) : State := { s with keyWaits := s.keyWaits + 1 }

/-- The draws the environment has for the coming cycle: free values, and no answer from a silent provider. -/
def State.draws (s : State) : Draws where
  rnd := Config.randomByte s.rndDraws
  key := if s.keyProvider = .answers then some (Config.keyAnswer s.keyWaits) else none

/-! ### Checks made before any change (20_memory.md R33, 60_exceptions.md R101) -/

/-- The range check on `I`: the whole access lies in memory, or `MemoryOutOfRange(I, len)` (R33). -/
def State.withRange (s : State) (len : Nat) (next : State) : Result :=
  if inMemory s.I len then .next next else raise (.memoryOutOfRange s.I len)

/-! ### The display (10_state.md R25, 44_display.md) -/

/-- The pixel at a column and a row, false outside the 64 × 32 grid. -/
def pixelAt (d : Display) (px py : Nat) : Bool :=
  if h : px < 64 ∧ py < 32 then d[px][py] else false

/-- All pixels false. -/
def clearDisplay : Display := Vector.replicate 64 (Vector.replicate 32 false)

/-- The display under a sprite, and whether a set pixel was turned off so far. -/
abbrev Canvas := Display × Bool

/-- A set sprite bit at (px, py): inside the grid the pixel is inverted and a pixel that was set is a collision; outside
it is clipped (R92, D16). -/
def flipPixel (acc : Canvas) (px py : Nat) : Canvas :=
  if h : px < 64 ∧ py < 32 then
    (acc.1.set px ((acc.1[px]).set py (!acc.1[px][py])), acc.2 || acc.1[px][py])
  else acc

/-- Columns `c`, …, 7 of one sprite row, bit 7 of the byte first (R92); `k` counts the columns left. -/
def drawBits (b : Byte) (cx py : Nat) : Nat → Canvas → Canvas
  | 0, acc => acc
  | k + 1, acc =>
    drawBits b cx py k (if b.getLsbD k then flipPixel acc (cx + (7 - k)) py else acc)

/-- The rows of a sprite, downwards from row `cy` (R92). -/
def drawRows (cx : Nat) : Nat → List Byte → Canvas → Canvas
  | _, [], acc => acc
  | py, b :: rows, acc => drawRows cx (py + 1) rows (drawBits b cx py 8 acc)

/-! ### The cycle's own parts (40_cycle.md) -/

/-- The two bytes at `pc` and `pc+1`, big-endian (R54). -/
def State.fetchWord (s : State) : Word := joinBytes (s.mem.read s.pc.toNat) (s.mem.read (s.pc.toNat + 1))

/-- Fetch and decode, with their errors in the order of 60_exceptions.md R103: `PcOutOfRange` before anything is read,
then `InvalidOpcode` (R53, R54). -/
def State.fetch (s : State) : Except Fault Instr :=
  if s.pc.toNat > Config.pcMax then .error (.pcOutOfRange s.pc)
  else match decode s.fetchWord with
    | .instr i => .ok i
    | .invalidOpcode op => .error (.invalidOpcode op)

/-- The tone of a cycle, read after the instruction and before the decrement: `ST == 1` (R56, C2). -/
def State.toneOutput (s : State) : Bool := s.ST == 1

/-- One timer's countdown: down by 1 if nonzero (R56). -/
def countdown (t : Byte) : Byte := if t = 0 then 0 else t - 1

/-- The timer tick after the instruction, the tone handed to the environment (R56). -/
def State.tick (s : State) : State :=
  { s with tone := s.toneOutput, DT := countdown s.DT, ST := countdown s.ST }

/-- The end of a cycle: a completed instruction is followed by the tick; an error or a suspended wait does not tick
(R56, R101). -/
def finishCycle : Result → Result
  | .next t => .next t.tick
  | .fault e => .fault e
  | .refused r => .refused r

/-- A word laid out at `pc`, high byte at the lower address (20_memory.md R34). -/
def State.placeWord (s : State) (op : Word) : State :=
  if s.pc.toNat ≤ Config.pcMax then s.setMem (s.mem.writeBytes s.pc.toNat [highByte op, lowByte op]) else s

end Sys2Proof.Machine
end

