-- ==== Sys2Proof/Machine/Alu.lean ====
section
/-! DEFINITION. ALU and register instructions (42_alu.md). Every one reads its operands first, then writes the result,
then the flag where it has one, and advances (R71). -/

namespace Sys2Proof.Machine

/-- An instruction of R71 without a flag. -/
def aluResult (x : Reg) (result : Byte) (s : State) : Result := .next (s.writeV x result).advance

/-- An instruction of R71 with a flag. -/
def aluResultFlag (x : Reg) (result flag : Byte) (s : State) : Result :=
  .next (s.writeResultFlag x result flag).advance

/-- `LD Vx, nn` (R72). -/
def execLdImm (x : Reg) (nn : Byte) (s : State) : Result := aluResult x nn s

/-- `ADD Vx, nn` (R73): no flag (D11). -/
def execAddImm (x : Reg) (nn : Byte) (s : State) : Result := aluResult x (sum8 (s.readV x) nn) s

/-- `LD Vx, Vy` (R74). -/
def execLdReg (x y : Reg) (s : State) : Result := aluResult x (s.readV y) s

/-- `OR Vx, Vy` (R75): no flag (D11). -/
def execOrReg (x y : Reg) (s : State) : Result := aluResult x (s.readV x ||| s.readV y) s

/-- `AND Vx, Vy` (R76): no flag (D11). -/
def execAndReg (x y : Reg) (s : State) : Result := aluResult x (s.readV x &&& s.readV y) s

/-- `XOR Vx, Vy` (R77): no flag (D11). -/
def execXorReg (x y : Reg) (s : State) : Result := aluResult x (s.readV x ^^^ s.readV y) s

/-- `ADD Vx, Vy` (R78): VF = carry. -/
def execAddReg (x y : Reg) (s : State) : Result :=
  aluResultFlag x (sum8 (s.readV x) (s.readV y)) (carryFlag (s.readV x) (s.readV y)) s

/-- `SUB Vx, Vy` (R79): VF = not-borrow. -/
def execSubReg (x y : Reg) (s : State) : Result :=
  aluResultFlag x (diff8 (s.readV x) (s.readV y)) (notBorrowFlag (s.readV x) (s.readV y)) s

/-- `SHR Vx` (R80): the `y` field is ignored and `V[y]` not read (D12). -/
def execShr (x _y : Reg) (s : State) : Result :=
  aluResultFlag x (shiftRight1 (s.readV x)) (shiftedOutRight (s.readV x)) s

/-- `SUBN Vx, Vy` (R81): VF = not-borrow of `V[y] - V[x]`. -/
def execSubnReg (x y : Reg) (s : State) : Result :=
  aluResultFlag x (diff8 (s.readV y) (s.readV x)) (notBorrowFlag (s.readV y) (s.readV x)) s

/-- `SHL Vx` (R82): the `y` field is ignored and `V[y]` not read (D12). -/
def execShl (x _y : Reg) (s : State) : Result :=
  aluResultFlag x (shiftLeft1 (s.readV x)) (shiftedOutLeft (s.readV x)) s

end Sys2Proof.Machine
end

