-- ==== Sys2Proof/Machine/Control.lean ====
section
/-! DEFINITION. Control transfer (41_control.md). -/

namespace Sys2Proof.Machine

/-- `RET` (R63): the popped value plus 2; `StackUnderflow` on an empty stack. -/
def execRet (s : State) : Result :=
  match s.stack.getLast? with
  | none => raise .stackUnderflow
  | some a => .next ((s.setStack s.stack.dropLast).setPc (a + 2))

/-- `JP nnn` (R64). -/
def execJp (nnn : Addr12) (s : State) : Result := .next (s.setPc (zext16 nnn))

/-- `CALL nnn` (R65): pushes the address of the CALL itself; `StackOverflow` when no entry is free. -/
def execCall (nnn : Addr12) (s : State) : Result :=
  if s.stack.length < Config.stackDepth then .next ((s.push s.pc).setPc (zext16 nnn)) else raise .stackOverflow

/-- `SE Vx, nn` (R66). -/
def execSeImm (x : Reg) (nn : Byte) (s : State) : Result := .next (s.skipIf (s.readV x == nn))

/-- `SNE Vx, nn` (R67). -/
def execSneImm (x : Reg) (nn : Byte) (s : State) : Result := .next (s.skipIf (s.readV x != nn))

/-- `SE Vx, Vy` (R68). -/
def execSeReg (x y : Reg) (s : State) : Result := .next (s.skipIf (s.readV x == s.readV y))

/-- `SNE Vx, Vy` (R69). -/
def execSneReg (x y : Reg) (s : State) : Result := .next (s.skipIf (s.readV x != s.readV y))

/-- `JP V0, nnn` (R70). -/
def execJpV0 (nnn : Addr12) (s : State) : Result := .next (s.setPc (indexedTarget nnn (s.readV 0)))

end Sys2Proof.Machine
end

