-- ==== Sys2Proof/Machine/DisplayInstrs.lean ====
section
/-! DEFINITION. Display instructions (44_display.md). -/

namespace Sys2Proof.Machine

/-- `CLS` (R91): VF is not written. -/
def execCls (s : State) : Result := .next (s.setDisp clearDisplay).advance

/-- The canvas after a `DRW`: the coordinates are read from the registers before VF is written (R92, D2). -/
def State.drawn (s : State) (x y : Reg) (n : Nat) : Canvas :=
  drawRows (s.readV x).toNat (s.readV y).toNat (s.mem.readBytes s.I.toNat n) (s.disp, false)

/-- `DRW Vx, Vy, n` (R92): VF ends as the collision flag, also when `x` or `y` is F. -/
def execDrw (x y : Reg) (n : Nat) (s : State) : Result :=
  s.withRange n
    (((s.setDisp (s.drawn x y n).1).writeV VF (collisionFlag (s.drawn x y n).2)).advance)

end Sys2Proof.Machine
end

