-- ==== Sys2Proof/Machine/IndexMemory.lean ====
section
/-! DEFINITION. Index register and memory instructions (43_index_memory.md). None changes `I` as a side effect of an
access (R84). -/

namespace Sys2Proof.Machine

/-- `LD I, nnn` (R85). -/
def execLdI (nnn : Addr12) (s : State) : Result := .next (s.setI (zext16 nnn)).advance

/-- `ADD I, Vx` (R86): modulo 65536, VF not written (D13). -/
def execAddI (x : Reg) (s : State) : Result := .next (s.setI (indexSum s.I (s.readV x))).advance

/-- `LD F, Vx` (R87): the address of a glyph; memory is not read; `GlyphOutOfRange` above 15 (D14). -/
def execLdF (x : Reg) (s : State) : Result :=
  if isHexDigit (s.readV x) then .next (s.setI (glyphAddress (s.readV x))).advance
  else raise (.glyphOutOfRange (s.readV x))

/-- `LD B, Vx` (R88): the three decimal digits at `I`, `I+1`, `I+2`. -/
def execLdB (x : Reg) (s : State) : Result :=
  s.withRange 3 (s.setMem (s.mem.writeBytes s.I.toNat (bcdDigits (s.readV x)))).advance

/-- `LD [I], Vx` (R89): V0 to Vx stored at `I`. -/
def execStRegs (x : Reg) (s : State) : Result :=
  s.withRange (x.val + 1) (s.setMem (s.mem.writeBytes s.I.toNat (s.regsUpTo x))).advance

/-- `LD Vx, [I]` (R90): V0 to Vx loaded from `I`. -/
def execLdRegs (x : Reg) (s : State) : Result :=
  s.withRange (x.val + 1) (s.loadRegs s.I.toNat x).advance

end Sys2Proof.Machine
end

