-- ==== Sys2Proof/Machine/KeypadTimers.lean ====
section
/-! DEFINITION. Keypad, timer and random instructions (45_keypad_timers_random.md). -/

namespace Sys2Proof.Machine

/-- `SKP Vx` (R93): `KeyOperandOutOfRange` above 15 (D15). -/
def execSkp (x : Reg) (s : State) : Result :=
  if isHexDigit (s.readV x) then .next (s.skipIf s.keys[keyOf (s.readV x)])
  else raise (.keyOperandOutOfRange (s.readV x))

/-- `SKNP Vx` (R94): `KeyOperandOutOfRange` above 15 (D15). -/
def execSknp (x : Reg) (s : State) : Result :=
  if isHexDigit (s.readV x) then .next (s.skipIf !s.keys[keyOf (s.readV x)])
  else raise (.keyOperandOutOfRange (s.readV x))

/-- The effect of an answered key wait: the index to `V[x]` (R95). -/
def keyAnswered (x : Reg) (k : Key) (s : State) : State :=
  ((s.writeV x (BitVec.ofNat 8 k.val)).countKeyWait).advance

/-- The key wait, given the provider's answer; a provider that does not answer leaves the cycle without a step (R95,
D20). The keypad latch is neither read nor written (D19). -/
def keyWait (x : Reg) (answer : Option Key) (s : State) : Result :=
  match answer with
  | some k => .next (keyAnswered x k s)
  | none => .refused .keyWaitSuspended

/-- `LD Vx, K` (R95): the provider is asked once, and its answer is a free value. -/
def execLdVxK (x : Reg) (s : State) : Result := keyWait x s.draws.key s

/-- `LD Vx, DT` (R96): before this cycle's tick. -/
def execLdVxDT (x : Reg) (s : State) : Result := .next (s.writeV x s.DT).advance

/-- `LD DT, Vx` (R97). -/
def execLdDT (x : Reg) (s : State) : Result := .next (s.setDT (s.readV x)).advance

/-- `LD ST, Vx` (R98). -/
def execLdST (x : Reg) (s : State) : Result := .next (s.setST (s.readV x)).advance

/-- The effect of a drawn random byte: `V[x] <- nn & r` (R99). -/
def randomDrawn (x : Reg) (nn r : Byte) (s : State) : State := ((s.writeV x (nn &&& r)).countDraw).advance

/-- `RND Vx, nn` (R99): each one executed draws exactly one byte, a free value (D21). -/
def execRnd (x : Reg) (nn : Byte) (s : State) : Result :=
  .next (randomDrawn x nn s.draws.rnd s)

end Sys2Proof.Machine
end

