-- ==== Sys2Proof/Machine/Cycle.lean ====
section
/-! DEFINITION. The cycle (40_cycle.md R53) in two forms: on the core in its environment, up to the tick; and on the
core's record alone, with the draws as parameters and the tone and the error as outputs (10_state.md R15, R61). -/

namespace Sys2Proof.Machine

/-- Fetch, decode and execute: the cycle up to its tick (R53). -/
def fetchAndExec (s : State) : Result :=
  match s.fetch with
  | .error e => raise e
  | .ok i => exec i s

/-- `exec` with given draws in place of the environment's (R61). -/
def execWith (d : Draws) (i : Instr) (s : State) : Result :=
  match i with
  | .rnd x nn => .next (randomDrawn x nn d.rnd s)
  | .ldVxK x => keyWait x d.key s
  | .cls | .ret | .jp _ | .call _ | .seImm _ _ | .sneImm _ _ | .seReg _ _ | .ldImm _ _ | .addImm _ _ | .ldReg _ _
  | .orReg _ _ | .andReg _ _ | .xorReg _ _ | .addReg _ _ | .subReg _ _ | .shr _ _ | .subnReg _ _ | .shl _ _
  | .sneReg _ _ | .ldI _ | .jpV0 _ | .drw _ _ _ | .skp _ | .sknp _ | .ldVxDT _ | .ldDT _ | .ldST _ | .addI _
  | .ldF _ | .ldB _ | .stRegs _ | .ldRegs _ => exec i s

/-- What a cycle of the core alone ends in (R57): the next record with the tone as an output, an error with the record
as it was (R101), or no end (R95). -/
inductive CoreResult where
  | ok (tone : Bool) (c : CoreState)
  | err (e : Fault) (c : CoreState)
  | suspended
deriving DecidableEq, Repr

/-- One cycle of the core: a function of its record R14 and of the draws, and of nothing else (R15, R61). It is run in
the environment after reset, of which Laws/Cycle.lean proves that any other gives the same. -/
def coreCycle (d : Draws) (c : CoreState) : CoreResult :=
  let s : State := { toCoreState := c, toEnvironment := State.reset.toEnvironment }
  match s.fetch with
  | .error e => .err e c
  | .ok i =>
    match execWith d i s with
    | .next t => .ok t.toneOutput t.tick.toCoreState
    | .fault e => .err e c
    | .refused _ => .suspended

end Sys2Proof.Machine
end

