-- ==== Sys2Proof/Machine/Step.lean ====
section
/-! DEFINITION. One cycle (40_cycle.md R53): fetch, decode, execute, tick; and the host's way to place an instruction
where the next cycle fetches it. -/

namespace Sys2Proof.Machine

/-- `execute_cycle` in the host's three outcomes (R53, R57). -/
def step (s : State) : Host.Outcome State Fault Refusal := finishCycle (fetchAndExec s)

/-- `s` with the one-word instruction `w` at `pc`, bits above `nbits` zero. It stands for a program loaded from outside
(log entry 11). Where `pc` is above 0x0FFE nothing can be fetched, and `s` is unchanged. -/
def State.withFetchWord (s : State) (nbits w : Nat) : State := s.placeWord (BitVec.ofNat 16 (w % 2 ^ nbits))

end Sys2Proof.Machine
end

