-- ==== Sys2Proof/Machine/HostInterface.lean ====
section
/-! DEFINITION. The host's transactions (40_cycle.md R51): `new`, `load_program`, `set_key`, `execute_cycle` and
`display_snapshot`, with the boundary errors and the error codes of 60_exceptions.md R100. -/

namespace Sys2Proof.Machine

/-- The boundary errors of R100: a host operation refused whole, with nothing changed (R101). -/
inductive BoundaryError where
  /-- Code 4, `load_program` with more than 3584 bytes (R117). -/
  | programTooLarge (len : Nat)
  /-- Code 5, `set_key` with an index above 15 (R59). -/
  | invalidKeyIndex (k : Nat)
deriving DecidableEq, Repr

/-- The numeric code of a cycle error (R100, D24). -/
def Fault.code : Fault → Nat
  | .invalidOpcode _ => 1
  | .stackUnderflow => 2
  | .stackOverflow => 3
  | .pcOutOfRange _ => 6
  | .memoryOutOfRange _ _ => 7
  | .glyphOutOfRange _ => 8
  | .keyOperandOutOfRange _ => 9

/-- The numeric code of a boundary error (R100, D24). -/
def BoundaryError.code : BoundaryError → Nat
  | .programTooLarge _ => 4
  | .invalidKeyIndex _ => 5

/-- `new()` for any value of the parameter FONT, an 80-byte table (R8, R115); `State.reset` is its value at the spec's
default table. -/
def State.newWith (font : Vector Byte 80) : State :=
  State.reset.setMem (State.reset.mem.writeBytes Config.fontBase font.toList)

/-- `load_program(bytes)` (R117): the bytes from 0x200 on and nothing else; an oversize program is refused whole. -/
def loadProgram (bytes : List Byte) (s : State) : Except BoundaryError State :=
  if bytes.length > Config.progMax then .error (.programTooLarge bytes.length)
  else .ok (s.setMem (s.mem.writeBytes Config.progBase bytes))

/-- `set_key(k, pressed)` (R59), for any natural number `k`. -/
def setKey (k : Nat) (pressed : Bool) (s : State) : Except BoundaryError State :=
  if h : k < 16 then .ok (s.setKeys (s.keys.set k pressed)) else .error (.invalidKeyIndex k)

/-- `display_snapshot()` (R60): a copy of the grid. -/
def displaySnapshot (s : State) : Display := s.disp

/-- What `execute_cycle()` returns (R57). -/
inductive CycleResult where
  /-- `Ok(tone)`, with the state after the cycle. -/
  | ok (tone : Bool) (s : State)
  /-- `Err(kind)`, with the state the host finds: the state before the cycle (R101). -/
  | err (e : Fault) (s : State)
  /-- The cycle has not returned: a key wait nobody answers (R95). -/
  | suspended
deriving DecidableEq, Repr

/-- What the core alone shows of a result. -/
def CycleResult.core : CycleResult → CoreResult
  | .ok tone s => .ok tone s.toCoreState
  | .err e s => .err e s.toCoreState
  | .suspended => .suspended

/-- `execute_cycle()` (R53, R57): the cycle with its outputs, which are returned and not read back from any state (R15). -/
def executeCycle (s : State) : CycleResult :=
  match fetchAndExec s with
  | .next t => .ok t.toneOutput t.tick
  | .fault e => .err e s
  | .refused _ => .suspended

end Sys2Proof.Machine
end

