-- ==== Sys2Proof/Safety.lean ====
section
/-! DEFINITION. What counts as a safe state and a safe run, in the terms the statements use. -/

namespace Sys2Proof.Machine

/-- The state a result goes on with, if it does. -/
def nextOf : Host.Outcome State Fault Refusal → Option State
  | .next t => some t
  | .fault _ => none
  | .refused _ => none

/-- The error a result ends in, if it does. -/
def faultOf : Host.Outcome State Fault Refusal → Option Fault
  | .next _ => none
  | .fault e => some e
  | .refused _ => none

/-- The invariant of every reachable state: `pc` at most 0x10FE (10_state.md R21), at most 16 return addresses (R23),
each the address of a fetched CALL, so at most 0x0FFE (R21), and the model's memory in canonical form. -/
def State.Inv (s : State) : Prop :=
  s.pc.toNat ≤ 0x10FE ∧ s.stack.length ≤ 16 ∧ (∀ a ∈ s.stack, a.toNat ≤ 0x0FFE) ∧ s.mem.wf

/-- The states core and host together can reach (40_cycle.md R51, R52): a new core with any font; then, between cycles,
any loads, key updates and bindings of a key-wait provider; and completed cycles. -/
inductive Reach : State → Prop where
  | new (font : Vector Byte 80) : Reach (State.newWith font)
  | load (s t : State) (bytes : List Byte) : Reach s → loadProgram bytes s = .ok t → Reach t
  | key (s t : State) (k : Nat) (pressed : Bool) : Reach s → setKey k pressed s = .ok t → Reach t
  | provider (s : State) (p : KeyProvider) : Reach s → Reach (s.setKeyProvider p)
  | cycle (s t : State) : Reach s → step s = .next t → Reach t

/-- A run of `n` completed cycles from `s`, none of which raised an error, to `t` (70_reset_and_hazards.md R119). -/
inductive SafeRun : Nat → State → State → Prop where
  | done (s : State) : SafeRun 0 s s
  | cycle (n : Nat) (s t u : State) : step s = .next t → SafeRun n t u → SafeRun (n + 1) s u

/-- The three ends of a run that a claim may name (R119, D31). -/
inductive RunEnd where
  /-- After `n` completed cycles. -/
  | afterCycles (n : Nat)
  /-- At the first cycle error. -/
  | atFirstError
  /-- On reaching a named idle address. -/
  | atIdleAddress (a : Addr)
deriving DecidableEq, Repr

/-- The run from `s` has the end `e`, in the state `t`. At an error `t` is the state the failing cycle left, the one
before it (R101); at an idle address it is the first state of the run with that `pc`. -/
def EndsIn (e : RunEnd) (s t : State) : Prop :=
  match e with
  | .afterCycles n => SafeRun n s t
  | .atFirstError => ∃ n err, SafeRun n s t ∧ step t = .fault err
  | .atIdleAddress a => ∃ n, SafeRun n s t ∧ t.pc = a ∧ ∀ m u, m < n → SafeRun m s u → u.pc ≠ a

/-- A cycle error is never a good end (R119, 60_exceptions.md R102). -/
def RunEnd.good : RunEnd → Bool
  | .afterCycles _ => true
  | .atFirstError => false
  | .atIdleAddress _ => true

/-- The conventional idle loop at `a`: the instruction there is a `JP` to its own address (R119, 40_cycle.md R58). -/
def State.idlesAt (s : State) (a : Addr) : Prop :=
  s.pc = a ∧ ∃ nnn : Addr12, zext16 nnn = a ∧ s.fetch = .ok (.jp nnn)

end Sys2Proof.Machine
end

