-- ==== Sys2Proof/Certificates/Slice0/Obligations.lean ====
section
/-! DEFINITION. The statements about the model, written from the numbered rules of spec/. In each, `s` is the state
before and `t` the state after; an equation `exec i s = .next { s with … }` says the result and the whole frame at once:
every field not named is unchanged, so every byte of memory reads as before where `mem` is not named. -/

open Sys2Proof Sys2Proof.Machine

/-! ### Encoding (30_encoding.md) -/

/-- Words written out from the patterns of R47 decode to the instructions they stand for. -/
def Obligations.SpecWordsDecode : Prop :=
  decode 0x00E0 = .instr .cls ∧ decode 0x00EE = .instr .ret ∧ decode 0x12A0 = .instr (.jp 0x2A0) ∧
  decode 0x2300 = .instr (.call 0x300) ∧ decode 0x3342 = .instr (.seImm 3 0x42) ∧
  decode 0x5120 = .instr (.seReg 1 2) ∧ decode 0x6005 = .instr (.ldImm 0 5) ∧ decode 0x8014 = .instr (.addReg 0 1) ∧
  decode 0x8AB6 = .instr (.shr 10 11) ∧ decode 0xA300 = .instr (.ldI 0x300) ∧ decode 0xC20F = .instr (.rnd 2 0x0F) ∧
  decode 0xD015 = .instr (.drw 0 1 5) ∧ decode 0xE19E = .instr (.skp 1) ∧ decode 0xF265 = .instr (.ldRegs 2) ∧
  decode 0x5123 = .invalidOpcode 0x5123 ∧ decode 0x8AB8 = .invalidOpcode 0x8AB8

/-- Decoding the word of a well-formed instruction gives the instruction back, with every operand (R45, R47, R48). -/
def Obligations.DecodeOfEncode : Prop :=
  ∀ i : Instr, i.wellFormed = true → decode (encode i) = .instr i

/-- Whatever the decoder accepts is well-formed and encodes to the very word it came from, so no two words decode to
one instruction and no bit is dropped (R46, R48). -/
def Obligations.EncodeOfDecode : Prop :=
  ∀ (op : Word) (i : Instr), decode op = .instr i → i.wellFormed = true ∧ encode i = op

/-- The words R49 lists as invalid, group by group. -/
def invalidByList (op : Word) : Prop :=
  let g := op.toNat / 4096
  let n := op.toNat % 16
  let kk := op.toNat % 256
  (g = 0x0 ∧ op ≠ 0x00E0 ∧ op ≠ 0x00EE) ∨ (g = 0x5 ∧ n ≠ 0) ∨
  (g = 0x8 ∧ n ∈ [0x8, 0x9, 0xA, 0xB, 0xC, 0xD, 0xF]) ∨ (g = 0x9 ∧ n ≠ 0) ∨ (g = 0xE ∧ kk ∉ [0x9E, 0xA1]) ∨
  (g = 0xF ∧ kk ∉ [0x07, 0x0A, 0x15, 0x18, 0x1E, 0x29, 0x33, 0x55, 0x65])

/-- The decoder rejects exactly the words of the list of R49, carrying the whole word, and executing one ends the cycle
with that error and no change. -/
def Obligations.InvalidWordsAreTheListed : Prop :=
  (∀ op w : Word, decode op = .invalidOpcode w ↔ w = op ∧ invalidByList op) ∧
  ∀ s : State, s.pc.toNat ≤ 0x0FFE →
    invalidByList (s.mem.read s.pc.toNat ++ s.mem.read (s.pc.toNat + 1)) →
    executeCycle s = .err (.invalidOpcode (s.mem.read s.pc.toNat ++ s.mem.read (s.pc.toNat + 1))) s

/-- A word is an instruction exactly when it matches a row of the table of R47, and then the row it matches is the
instruction's own: the decoder and the mask/match table agree. -/
def Obligations.DecoderAgreesWithTable : Prop :=
  (∀ op : Word, (∃ i, decode op = .instr i) ↔ ∃ row ∈ opcodeTable, op &&& row.mask = row.pattern) ∧
  (∀ (op : Word) (i : Instr) (row : TableRow), decode op = .instr i → row ∈ opcodeTable →
    op &&& row.mask = row.pattern → row = i.tableRow)

/-! ### The cycle (40_cycle.md, 60_exceptions.md) -/

/-- A step runs the decoded instruction: when the two bytes at `pc` decode to `i`, the step is `exec i` followed by the
timer tick, and an error or a suspended wait passes through. Where the tick keeps the tone is the model's choice (log
entry 5). -/
def Obligations.StepRunsDecodedInstruction : Prop :=
  ∀ (s : State) (i : Instr), s.pc.toNat ≤ 0x0FFE →
    decode (s.mem.read s.pc.toNat ++ s.mem.read (s.pc.toNat + 1)) = .instr i →
    step s = match exec i s with
      | .next t => .next { t with tone := t.ST == 1, DT := if t.DT = 0 then 0 else t.DT - 1,
                                  ST := if t.ST = 0 then 0 else t.ST - 1 }
      | .fault e => .fault e
      | .refused r => .refused r

/-- `execute_cycle` is fetch, decode, execute, tick, in that order, each error ending it at once with no state changed
(R53, R54, R57). -/
def Obligations.CycleSequence : Prop :=
  ∀ s : State,
    (s.pc.toNat > 0x0FFE → executeCycle s = .err (.pcOutOfRange s.pc) s) ∧
    (s.pc.toNat ≤ 0x0FFE →
      let op := s.mem.read s.pc.toNat ++ s.mem.read (s.pc.toNat + 1)
      (decode op = .invalidOpcode op → executeCycle s = .err (.invalidOpcode op) s) ∧
      ∀ i, decode op = .instr i →
        (∀ e, exec i s = .fault e → executeCycle s = .err e s) ∧
        (∀ t, exec i s = .next t → ∃ u, executeCycle s = .ok (t.ST == 1) u ∧
          u.DT.toNat = t.DT.toNat - 1 ∧ u.ST.toNat = t.ST.toNat - 1 ∧ u.V = t.V ∧ u.I = t.I ∧ u.pc = t.pc ∧
          u.mem = t.mem ∧ u.stack = t.stack ∧ u.disp = t.disp ∧ u.keys = t.keys))

/-- A timer written in a cycle is decremented by that cycle's tick, `LD Vx, DT` reads before it, and `LD ST, Vx` with 1
sounds the tone in its own cycle (the consequences of R56). -/
def Obligations.TimerLoadsTickInTheSameCycle : Prop :=
  ∀ (s t : State) (b : Bool) (x : Reg), executeCycle s = .ok b t →
    (s.fetch = .ok (.ldDT x) → t.DT.toNat = s.V[x].toNat - 1 ∧ t.ST.toNat = s.ST.toNat - 1 ∧ b = (s.ST == 1)) ∧
    (s.fetch = .ok (.ldST x) → t.ST.toNat = s.V[x].toNat - 1 ∧ t.DT.toNat = s.DT.toNat - 1 ∧ b = (s.V[x] == 1)) ∧
    (s.fetch = .ok (.ldVxDT x) → t.V[x] = s.DT ∧ t.DT.toNat = s.DT.toNat - 1 ∧ t.ST.toNat = s.ST.toNat - 1)

/-- `n` completed cycles from `s` to `t`, none of which executes `LD ST, Vx`, with the tone each returned, in order. -/
inductive QuietRun : Nat → State → State → List Bool → Prop where
  | done (s : State) : QuietRun 0 s s []
  | cycle (n : Nat) (s t u : State) (b : Bool) (bs : List Bool) : (∀ x, s.fetch ≠ .ok (.ldST x)) →
      executeCycle s = .ok b t → QuietRun n t u bs → QuietRun (n + 1) s u (b :: bs)

/-- The tone is one-shot: while `ST` is not reloaded it counts down once a cycle, and the tone is returned by exactly
the cycle whose tick takes it from 1 to 0 (R27, R56). -/
def Obligations.ToneIsOneShot : Prop :=
  ∀ (n : Nat) (s t : State) (tones : List Bool), QuietRun n s t tones →
    t.ST.toNat = s.ST.toNat - n ∧ tones.length = n ∧
    ∀ (k : Nat) (h : k < tones.length), tones[k] = true ↔ s.ST.toNat = k + 1

/-- The error an instruction raises by its own check, if it raises one: each has at most one check (R103). -/
def ownError (i : Instr) (s : State) (e : Fault) : Prop :=
  match i with
  | .ret => s.stack = [] ∧ e = .stackUnderflow
  | .call _ => s.stack.length = 16 ∧ e = .stackOverflow
  | .drw _ _ n => n > 0 ∧ s.I.toNat + n - 1 > 0xFFF ∧ e = .memoryOutOfRange s.I n
  | .ldB _ => s.I.toNat + 2 > 0xFFF ∧ e = .memoryOutOfRange s.I 3
  | .stRegs x | .ldRegs x => s.I.toNat + x.val > 0xFFF ∧ e = .memoryOutOfRange s.I (x.val + 1)
  | .ldF x => s.V[x].toNat > 15 ∧ e = .glyphOutOfRange s.V[x]
  | .skp x | .sknp x => s.V[x].toNat > 15 ∧ e = .keyOperandOutOfRange s.V[x]
  | _ => False

/-- The errors of a cycle, exactly, in the order they are checked: fetch range, then decode, then the decoded
instruction's own check (R103). The stack holds at most 16 entries (R23), which the invariant of
StepKeepsTheInvariant says. -/
def Obligations.CycleErrorsExactly : Prop :=
  ∀ (s : State) (e : Fault), s.stack.length ≤ 16 → (step s = .fault e ↔
    (s.pc.toNat > 0x0FFE ∧ e = .pcOutOfRange s.pc) ∨
    (s.pc.toNat ≤ 0x0FFE ∧
      let op := s.mem.read s.pc.toNat ++ s.mem.read (s.pc.toNat + 1)
      (decode op = .invalidOpcode op ∧ e = .invalidOpcode op) ∨ ∃ i, decode op = .instr i ∧ ownError i s e))

/-- A cycle after an error raises the same error from the same state, whatever keys the host updates in between. The spec
marks R102 as derived (from R101 and R61), and that the state after an error is the one before it is log entry 6's
reading (DEDUCED). -/
def Obligations.ErrorRepeats : Prop :=
  ∀ (s s' : State) (e : Fault), executeCycle s = .err e s' →
    s' = s ∧ executeCycle s' = .err e s' ∧
    ∀ (k : Nat) (pressed : Bool) (t : State), setKey k pressed s' = .ok t → executeCycle t = .err e t

/-- Nothing but a key wait nobody answers leaves an instruction without a step, so every other instruction either
completes or raises a cycle error of R100 (R58, R95). That the silent provider is a field is the model's choice (log
entry 4). -/
def Obligations.OnlySilentKeyWaitSuspends : Prop :=
  ∀ (i : Instr) (s : State) (r : Refusal),
    exec i s = .refused r ↔ (∃ x, i = .ldVxK x) ∧ s.keyProvider = .silent ∧ r = .keyWaitSuspended

/-! ### Control transfer (41_control.md) -/

/-- `JP nnn` (R64). -/
def Obligations.JumpSetsPc : Prop :=
  ∀ (nnn : Addr12) (s : State), decode (0x1#4 ++ nnn) = .instr (.jp nnn) ∧
    exec (.jp nnn) s = .next { s with pc := nnn.zeroExtend 16 }

/-- `JP V0, nnn` adds V0, never wrapping and never reducing modulo 4096 (R70). -/
def Obligations.IndexedJumpAddsV0 : Prop :=
  ∀ (nnn : Addr12) (s : State), decode (0xB#4 ++ nnn) = .instr (.jpV0 nnn) ∧
    ∃ target : Addr, exec (.jpV0 nnn) s = .next { s with pc := target } ∧
      target.toNat = nnn.toNat + s.V[0].toNat ∧ target.toNat ≤ 0x10FE

/-- `CALL nnn` pushes its own address on top and jumps; with 16 entries it raises `StackOverflow` (R65). -/
def Obligations.CallPushesItsOwnAddress : Prop :=
  ∀ (nnn : Addr12) (s : State), decode (0x2#4 ++ nnn) = .instr (.call nnn) ∧
    (s.stack.length < 16 →
      exec (.call nnn) s = .next { s with stack := s.stack ++ [s.pc], pc := nnn.zeroExtend 16 }) ∧
    (s.stack.length = 16 → exec (.call nnn) s = .fault .stackOverflow)

/-- `RET` pops the top and goes to it plus 2; on an empty stack it raises `StackUnderflow` (R63). -/
def Obligations.ReturnPopsTheTop : Prop :=
  decode 0x00EE = .instr .ret ∧
  ∀ s : State,
    (∀ (below : List Addr) (a : Addr), s.stack = below ++ [a] →
      exec .ret s = .next { s with stack := below, pc := a + 2 }) ∧
    (s.stack = [] → exec .ret s = .fault .stackUnderflow)

/-- `CALL` at p, then `RET` from any state with the stack the call left: `pc` is p + 2 and the stack is as before the
call (the source's property W7, from R63 and R65). -/
def Obligations.ReturnUndoesCall : Prop :=
  ∀ (nnn : Addr12) (s t u : State), exec (.call nnn) s = .next t → u.stack = t.stack →
    exec .ret u = .next { u with stack := s.stack, pc := s.pc + 2 }

/-- `SE Vx, nn` and `SNE Vx, nn`: 4 when the condition holds, else 2, nothing else changed (R66, R67). -/
def Obligations.SkipsOnImmediate : Prop :=
  ∀ (x : Reg) (nn : Byte) (s : State),
    decode (0x3#4 ++ BitVec.ofNat 4 x.val ++ nn) = .instr (.seImm x nn) ∧
    decode (0x4#4 ++ BitVec.ofNat 4 x.val ++ nn) = .instr (.sneImm x nn) ∧
    exec (.seImm x nn) s = .next { s with pc := if s.V[x] = nn then s.pc + 4 else s.pc + 2 } ∧
    exec (.sneImm x nn) s = .next { s with pc := if s.V[x] ≠ nn then s.pc + 4 else s.pc + 2 }

/-- `SE Vx, Vy` and `SNE Vx, Vy` (R68, R69). -/
def Obligations.SkipsOnRegisters : Prop :=
  ∀ (x y : Reg) (s : State),
    decode (0x5#4 ++ BitVec.ofNat 4 x.val ++ BitVec.ofNat 4 y.val ++ 0x0#4) = .instr (.seReg x y) ∧
    decode (0x9#4 ++ BitVec.ofNat 4 x.val ++ BitVec.ofNat 4 y.val ++ 0x0#4) = .instr (.sneReg x y) ∧
    exec (.seReg x y) s = .next { s with pc := if s.V[x] = s.V[y] then s.pc + 4 else s.pc + 2 } ∧
    exec (.sneReg x y) s = .next { s with pc := if s.V[x] ≠ s.V[y] then s.pc + 4 else s.pc + 2 }

/-! ### ALU (42_alu.md) -/

/-- The word `8xyf`. -/
def word8 (x y : Reg) (f : BitVec 4) : Word := 0x8#4 ++ BitVec.ofNat 4 x.val ++ BitVec.ofNat 4 y.val ++ f

/-- `LD Vx, nn` and `LD Vx, Vy` (R72, R74). -/
def Obligations.LoadsAndCopies : Prop :=
  ∀ (x y : Reg) (nn : Byte) (s : State),
    decode (0x6#4 ++ BitVec.ofNat 4 x.val ++ nn) = .instr (.ldImm x nn) ∧
    decode (word8 x y 0x0) = .instr (.ldReg x y) ∧
    exec (.ldImm x nn) s = .next { s with V := s.V.set x nn, pc := s.pc + 2 } ∧
    exec (.ldReg x y) s = .next { s with V := s.V.set x s.V[y], pc := s.pc + 2 }

/-- `ADD Vx, nn` wraps modulo 256 and writes no flag (R73). -/
def Obligations.AddImmediateWritesNoFlag : Prop :=
  ∀ (x : Reg) (nn : Byte) (s : State),
    decode (0x7#4 ++ BitVec.ofNat 4 x.val ++ nn) = .instr (.addImm x nn) ∧
    ∃ t, exec (.addImm x nn) s = .next t ∧ t.V[x].toNat = (s.V[x].toNat + nn.toNat) % 256 ∧
      (∀ r : Reg, r ≠ x → t.V[r] = s.V[r]) ∧ t = { s with V := t.V, pc := s.pc + 2 }

/-- `OR`, `AND`, `XOR` are bitwise and write no flag (R75, R76, R77). -/
def Obligations.LogicWritesNoFlag : Prop :=
  ∀ (x y : Reg) (s : State),
    decode (word8 x y 0x1) = .instr (.orReg x y) ∧ decode (word8 x y 0x2) = .instr (.andReg x y) ∧
    decode (word8 x y 0x3) = .instr (.xorReg x y) ∧
    exec (.orReg x y) s = .next { s with V := s.V.set x (s.V[x] ||| s.V[y]), pc := s.pc + 2 } ∧
    exec (.andReg x y) s = .next { s with V := s.V.set x (s.V[x] &&& s.V[y]), pc := s.pc + 2 } ∧
    exec (.xorReg x y) s = .next { s with V := s.V.set x (s.V[x] ^^^ s.V[y]), pc := s.pc + 2 }

/-- `i` completes from `s`, leaves `flag` in VF whatever `x` is, `result` in `V[x]` when `x` is not F, every other
register as before, and changes nothing else but `pc`, by 2. -/
def resultAndFlag (i : Instr) (s : State) (x : Reg) (result flag : Nat) : Prop :=
  ∃ t, exec i s = .next t ∧ t.V[VF].toNat = flag ∧ (x ≠ VF → t.V[x].toNat = result) ∧
    (∀ r : Reg, r ≠ x → r ≠ VF → t.V[r] = s.V[r]) ∧ t = { s with V := t.V, pc := s.pc + 2 }

/-- `ADD Vx, Vy`: the sum modulo 256, VF = 1 iff the sum is above 255 (R78). -/
def Obligations.AddSetsCarry : Prop :=
  ∀ (x y : Reg) (s : State), decode (word8 x y 0x4) = .instr (.addReg x y) ∧
    let a := s.V[x].toNat
    let b := s.V[y].toNat
    resultAndFlag (.addReg x y) s x ((a + b) % 256) (if a + b > 255 then 1 else 0)

/-- `SUB Vx, Vy`: the difference modulo 256, VF = 0 iff `Vx < Vy` before the subtraction (R79). -/
def Obligations.SubSetsNotBorrow : Prop :=
  ∀ (x y : Reg) (s : State), decode (word8 x y 0x5) = .instr (.subReg x y) ∧
    let a := s.V[x].toNat
    let b := s.V[y].toNat
    resultAndFlag (.subReg x y) s x ((a + 256 - b) % 256) (if a < b then 0 else 1)

/-- `SUBN Vx, Vy`: `Vy - Vx` modulo 256, VF = 0 iff `Vy < Vx` (R81). -/
def Obligations.SubnSetsNotBorrow : Prop :=
  ∀ (x y : Reg) (s : State), decode (word8 x y 0x7) = .instr (.subnReg x y) ∧
    let a := s.V[x].toNat
    let b := s.V[y].toNat
    resultAndFlag (.subnReg x y) s x ((b + 256 - a) % 256) (if b < a then 0 else 1)

/-- `SHR Vx`: half of Vx, VF = its bit 0 before the shift; every value of `y` decodes and `V[y]` plays no part (R80). -/
def Obligations.ShrShiftsOutBit0 : Prop :=
  ∀ (x y : Reg) (s : State), decode (word8 x y 0x6) = .instr (.shr x y) ∧
    resultAndFlag (.shr x y) s x (s.V[x].toNat / 2) (s.V[x].toNat % 2)

/-- `SHL Vx`: twice Vx modulo 256, VF = its bit 7 before the shift; every value of `y` decodes and `V[y]` plays no part
(R82). -/
def Obligations.ShlShiftsOutBit7 : Prop :=
  ∀ (x y : Reg) (s : State), decode (word8 x y 0xE) = .instr (.shl x y) ∧
    resultAndFlag (.shl x y) s x (s.V[x].toNat * 2 % 256) (s.V[x].toNat / 128)

/-- The arithmetic laws of R83, of result and flag together, for a destination other than VF. -/
def Obligations.ArithmeticLaws : Prop :=
  ∀ (x y : Reg) (s t : State), x ≠ VF →
    let a := s.V[x].toNat
    let b := s.V[y].toNat
    (exec (.addReg x y) s = .next t → t.V[x].toNat + 256 * t.V[VF].toNat = a + b) ∧
    (exec (.subReg x y) s = .next t → (t.V[x].toNat : Int) = a - b + 256 * (1 - t.V[VF].toNat)) ∧
    (exec (.subnReg x y) s = .next t → (t.V[x].toNat : Int) = b - a + 256 * (1 - t.V[VF].toNat)) ∧
    (exec (.shr x y) s = .next t → a = 2 * t.V[x].toNat + t.V[VF].toNat) ∧
    (exec (.shl x y) s = .next t → 2 * a = t.V[x].toNat + 256 * t.V[VF].toNat)

/-! ### Index register and memory (43_index_memory.md) -/

/-- `LD I, nnn` and `ADD I, Vx`: 16 bits are held, the sum is modulo 65536 and VF is not written (R85, R86). -/
def Obligations.IndexLoadAndAdd : Prop :=
  ∀ (nnn : Addr12) (x : Reg) (s : State),
    decode (0xA#4 ++ nnn) = .instr (.ldI nnn) ∧
    decode (0xF#4 ++ BitVec.ofNat 4 x.val ++ 0x1E#8) = .instr (.addI x) ∧
    exec (.ldI nnn) s = .next { s with I := nnn.zeroExtend 16, pc := s.pc + 2 } ∧
    ∃ i' : Addr, exec (.addI x) s = .next { s with I := i', pc := s.pc + 2 } ∧
      i'.toNat = (s.I.toNat + s.V[x].toNat) % 65536

/-- `LD F, Vx`: five times the digit, memory unread; above 15 it raises `GlyphOutOfRange` (R87). -/
def Obligations.GlyphAddressIsFiveTimesDigit : Prop :=
  ∀ (x : Reg) (s : State), decode (0xF#4 ++ BitVec.ofNat 4 x.val ++ 0x29#8) = .instr (.ldF x) ∧
    (s.V[x].toNat ≤ 15 → ∃ i' : Addr, exec (.ldF x) s = .next { s with I := i', pc := s.pc + 2 } ∧
      i'.toNat = s.V[x].toNat * 5) ∧
    (s.V[x].toNat > 15 → exec (.ldF x) s = .fault (.glyphOutOfRange s.V[x]))

/-- `LD B, Vx`: hundreds, tens and ones at `I`, `I+1`, `I+2`, every other byte and everything else but `pc` unchanged;
reaching past 0xFFF it raises `MemoryOutOfRange(I, 3)` (R88, R33). -/
def Obligations.BcdStoresThreeDigits : Prop :=
  ∀ (x : Reg) (s : State), s.mem.wf → decode (0xF#4 ++ BitVec.ofNat 4 x.val ++ 0x33#8) = .instr (.ldB x) ∧
    (s.I.toNat + 2 ≤ 0xFFF → ∃ t, exec (.ldB x) s = .next t ∧
      (t.mem.read s.I.toNat).toNat = s.V[x].toNat / 100 ∧
      (t.mem.read (s.I.toNat + 1)).toNat = s.V[x].toNat / 10 % 10 ∧
      (t.mem.read (s.I.toNat + 2)).toNat = s.V[x].toNat % 10 ∧
      (∀ a, a < s.I.toNat ∨ a ≥ s.I.toNat + 3 → t.mem.read a = s.mem.read a) ∧
      t = { s with mem := t.mem, pc := s.pc + 2 }) ∧
    (s.I.toNat + 2 > 0xFFF → exec (.ldB x) s = .fault (.memoryOutOfRange s.I 3))

/-- `LD [I], Vx`: V0 to Vx at `I` and up, every other byte and everything else but `pc` unchanged, `I` too; reaching past
0xFFF it raises `MemoryOutOfRange(I, x + 1)` (R89, R33). -/
def Obligations.RegisterDumpStoresUpToX : Prop :=
  ∀ (x : Reg) (s : State), s.mem.wf → decode (0xF#4 ++ BitVec.ofNat 4 x.val ++ 0x55#8) = .instr (.stRegs x) ∧
    (s.I.toNat + x.val ≤ 0xFFF → ∃ t, exec (.stRegs x) s = .next t ∧
      (∀ r : Reg, r ≤ x → t.mem.read (s.I.toNat + r.val) = s.V[r]) ∧
      (∀ a, a < s.I.toNat ∨ a > s.I.toNat + x.val → t.mem.read a = s.mem.read a) ∧
      t = { s with mem := t.mem, pc := s.pc + 2 }) ∧
    (s.I.toNat + x.val > 0xFFF → exec (.stRegs x) s = .fault (.memoryOutOfRange s.I (x.val + 1)))

/-- `LD Vx, [I]`: V0 to Vx from `I` and up, the registers above Vx and everything else but `pc` unchanged; reaching past
0xFFF it raises `MemoryOutOfRange(I, x + 1)` (R90, R33). -/
def Obligations.RegisterLoadFillsUpToX : Prop :=
  ∀ (x : Reg) (s : State), decode (0xF#4 ++ BitVec.ofNat 4 x.val ++ 0x65#8) = .instr (.ldRegs x) ∧
    (s.I.toNat + x.val ≤ 0xFFF → ∃ t, exec (.ldRegs x) s = .next t ∧
      (∀ r : Reg, r ≤ x → t.V[r] = s.mem.read (s.I.toNat + r.val)) ∧
      (∀ r : Reg, r > x → t.V[r] = s.V[r]) ∧
      t = { s with V := t.V, pc := s.pc + 2 }) ∧
    (s.I.toNat + x.val > 0xFFF → exec (.ldRegs x) s = .fault (.memoryOutOfRange s.I (x.val + 1)))

/-- A dump followed by a load of the same registers through the same `I` gives back what was dumped, whatever the
registers held in between (from R84, R89 and R90). -/
def Obligations.LoadRestoresDump : Prop :=
  ∀ (x : Reg) (s t u v : State), s.mem.wf → exec (.stRegs x) s = .next t → u.mem = t.mem → u.I = s.I →
    exec (.ldRegs x) u = .next v → ∀ r : Reg, v.V[r] = if r ≤ x then s.V[r] else u.V[r]

/-- A byte stored over code is what the next cycle fetches, at any parity (R34, R41). -/
def Obligations.StoredCodeIsFetched : Prop :=
  ∀ (x : Reg) (s t : State), s.mem.wf → 1 ≤ x.val → exec (.stRegs x) s = .next t → s.I.toNat ≤ 0x0FFE →
    t.pc = s.I → ∀ i, decode (s.V[0] ++ s.V[1]) = .instr i → step t = finishCycle (exec i t)

/-! ### Display (44_display.md) -/

/-- `CLS`: every pixel false, VF and everything else but `pc` unchanged (R91). -/
def Obligations.ClsClearsEveryPixel : Prop :=
  decode 0x00E0 = .instr .cls ∧
  ∀ s : State, ∃ t, exec .cls s = .next t ∧ (∀ (c : Fin 64) (r : Fin 32), t.disp[c][r] = false) ∧
    t = { s with disp := t.disp, pc := s.pc + 2 }

/-- The sprite of `n` rows read at `I` and placed with its left upper corner at column `cx`, row `cy` has a set bit at
column `c`, row `r`: bit 7 of a byte is the leftmost (R13, R92). -/
def spriteBit (s : State) (cx cy n c r : Nat) : Bool :=
  decide (cx ≤ c ∧ c < cx + 8 ∧ cy ≤ r ∧ r < cy + n) && (s.mem.read (s.I.toNat + (r - cy))).getLsbD (7 - (c - cx))

/-- `DRW`, pixel by pixel: inside the grid each pixel is the exclusive or of what it was and the sprite's bit there, what
falls outside is clipped (at the right edge and in start coordinates: HCLIP at its default, the model's choice, log
entry 7), VF is 1 exactly when a lit pixel met a set bit, the coordinates are V[x] and V[y] before VF is
written, and nothing else but `pc` changes; a sprite reaching past 0xFFF raises `MemoryOutOfRange(I, n)` (R92, R33). -/
def Obligations.DrawXorsSpriteAndSetsCollision : Prop :=
  ∀ (x y : Reg) (n : BitVec 4) (s : State),
    decode (0xD#4 ++ BitVec.ofNat 4 x.val ++ BitVec.ofNat 4 y.val ++ n) = .instr (.drw x y n.toNat) ∧
    let bit := spriteBit s s.V[x].toNat s.V[y].toNat n.toNat
    (n = 0 ∨ s.I.toNat + n.toNat - 1 ≤ 0xFFF → ∃ t, exec (.drw x y n.toNat) s = .next t ∧
      (∀ (c : Fin 64) (r : Fin 32), t.disp[c][r] = (s.disp[c][r] ^^ bit c.val r.val)) ∧
      ((∃ (c : Fin 64) (r : Fin 32), s.disp[c][r] = true ∧ bit c.val r.val = true) → t.V[VF] = 1) ∧
      ((∀ (c : Fin 64) (r : Fin 32), s.disp[c][r] = true → bit c.val r.val = false) → t.V[VF] = 0) ∧
      (∀ r : Reg, r ≠ VF → t.V[r] = s.V[r]) ∧
      t = { s with disp := t.disp, V := t.V, pc := s.pc + 2 }) ∧
    (n ≠ 0 → s.I.toNat + n.toNat - 1 > 0xFFF → exec (.drw x y n.toNat) s = .fault (.memoryOutOfRange s.I n.toNat))

/-- Drawing the same sprite twice at the same place restores every pixel, and the second draw collides exactly when the
first turned a pixel on (the source's property W6, from R92). -/
def Obligations.DrawTwiceRestores : Prop :=
  ∀ (x y : Reg) (n : Nat) (s t : State), x ≠ VF → y ≠ VF → n < 16 → exec (.drw x y n) s = .next t →
    ∃ u, exec (.drw x y n) t = .next u ∧ u.disp = s.disp ∧
      (u.V[VF] = 1 ↔ ∃ (c : Fin 64) (r : Fin 32), s.disp[c][r] = false ∧ t.disp[c][r] = true)

/-! ### Keypad, timers, random (45_keypad_timers_random.md) -/

/-- `SKP Vx` and `SKNP Vx` skip on the key V[x] names, reading the latch and changing nothing but `pc`; above 15 they
raise `KeyOperandOutOfRange` (R93, R94). -/
def Obligations.KeySkips : Prop :=
  ∀ (x : Reg) (s : State),
    decode (0xE#4 ++ BitVec.ofNat 4 x.val ++ 0x9E#8) = .instr (.skp x) ∧
    decode (0xE#4 ++ BitVec.ofNat 4 x.val ++ 0xA1#8) = .instr (.sknp x) ∧
    (∀ k : Key, s.V[x].toNat = k.val →
      exec (.skp x) s = .next { s with pc := if s.keys[k] = true then s.pc + 4 else s.pc + 2 } ∧
      exec (.sknp x) s = .next { s with pc := if s.keys[k] = true then s.pc + 2 else s.pc + 4 }) ∧
    (s.V[x].toNat > 15 → exec (.skp x) s = .fault (.keyOperandOutOfRange s.V[x]) ∧
      exec (.sknp x) s = .fault (.keyOperandOutOfRange s.V[x]))

/-- `LD Vx, K`: with a provider that answers, the answer, a key 0 to 15 and otherwise free, is in V[x] and the latch is
untouched; with one that does not, the cycle has no step and no timer ticks (R95). The counter and the provider field are
the model's choices (log entries 3 and 4); the statement holds whatever the answers are. -/
def Obligations.KeyWaitStoresTheAnswer : Prop :=
  ∀ (x : Reg) (s : State), decode (0xF#4 ++ BitVec.ofNat 4 x.val ++ 0x0A#8) = .instr (.ldVxK x) ∧
    (s.keyProvider = .answers → ∃ k : Key, k = Config.keyAnswer s.keyWaits ∧ exec (.ldVxK x) s =
      .next { s with V := s.V.set x (BitVec.ofNat 8 k.val), keyWaits := s.keyWaits + 1, pc := s.pc + 2 }) ∧
    (s.keyProvider = .silent → exec (.ldVxK x) s = .refused .keyWaitSuspended ∧
      (s.fetch = .ok (.ldVxK x) → executeCycle s = .suspended))

/-- The timer moves `LD Vx, DT`, `LD DT, Vx` and `LD ST, Vx`, before the cycle's tick (R96, R97, R98). -/
def Obligations.TimerMoves : Prop :=
  ∀ (x : Reg) (s : State),
    decode (0xF#4 ++ BitVec.ofNat 4 x.val ++ 0x07#8) = .instr (.ldVxDT x) ∧
    decode (0xF#4 ++ BitVec.ofNat 4 x.val ++ 0x15#8) = .instr (.ldDT x) ∧
    decode (0xF#4 ++ BitVec.ofNat 4 x.val ++ 0x18#8) = .instr (.ldST x) ∧
    exec (.ldVxDT x) s = .next { s with V := s.V.set x s.DT, pc := s.pc + 2 } ∧
    exec (.ldDT x) s = .next { s with DT := s.V[x], pc := s.pc + 2 } ∧
    exec (.ldST x) s = .next { s with ST := s.V[x], pc := s.pc + 2 }

/-- `RND Vx, nn`: the mask of one freshly drawn byte, which is free; a bit clear in `nn` is clear in the result (R99).
The counter of draws is the model's choice (log entry 2); the statement holds whatever the bytes are. -/
def Obligations.RandomByteIsMasked : Prop :=
  ∀ (x : Reg) (nn : Byte) (s : State), decode (0xC#4 ++ BitVec.ofNat 4 x.val ++ nn) = .instr (.rnd x nn) ∧
    ∃ r : Byte, r = Config.randomByte s.rndDraws ∧ exec (.rnd x nn) s =
        .next { s with V := s.V.set x (nn &&& r), rndDraws := s.rndDraws + 1, pc := s.pc + 2 } ∧
      (nn &&& r) &&& ~~~nn = 0

/-! ### Rules of the whole machine -/

/-- Only `LD B, Vx` and `LD [I], Vx` write memory: after any other instruction every byte reads as before (20_memory.md
R32). -/
def Obligations.OnlyStoresWriteMemory : Prop :=
  ∀ (i : Instr) (s t : State), exec i s = .next t → (∀ x, i ≠ .ldB x) → (∀ x, i ≠ .stRegs x) →
    ∀ a, t.mem.read a = s.mem.read a

/-- `I` is written only by `LD I, nnn`, `ADD I, Vx` and `LD F, Vx` (10_state.md R19), and no access changes it (R84). -/
def Obligations.OnlyIndexInstructionsWriteI : Prop :=
  ∀ (i : Instr) (s t : State), exec i s = .next t → (∀ nnn, i ≠ .ldI nnn) → (∀ x, i ≠ .addI x) → (∀ x, i ≠ .ldF x) →
    t.I = s.I

/-- The stack is changed only by `CALL` and `RET` (10_state.md R23), and a timer only by its own load (R22). -/
def Obligations.OnlyTheirInstructionsChangeStackAndTimers : Prop :=
  ∀ (i : Instr) (s t : State), exec i s = .next t →
    ((∀ nnn, i ≠ .call nnn) → i ≠ .ret → t.stack = s.stack) ∧
    ((∀ x, i ≠ .ldDT x) → t.DT = s.DT) ∧ ((∀ x, i ≠ .ldST x) → t.ST = s.ST)

/-- The display is mutated only by `CLS` and `DRW` (10_state.md R25). -/
def Obligations.OnlyClsAndDrwChangeDisplay : Prop :=
  ∀ (i : Instr) (s t : State), exec i s = .next t → i ≠ .cls → (∀ x y n, i ≠ .drw x y n) → t.disp = s.disp

/-- The registers an instruction may write: its destination, VF where it writes a flag, V0 to Vx for the load. -/
def mayWrite (i : Instr) (r : Reg) : Prop :=
  match i with
  | .ldImm x _ | .addImm x _ | .ldReg x _ | .orReg x _ | .andReg x _ | .xorReg x _ | .ldVxDT x | .ldVxK x | .rnd x _ => r = x
  | .addReg x _ | .subReg x _ | .shr x _ | .subnReg x _ | .shl x _ => r = x ∨ r = VF
  | .drw _ _ _ => r = VF
  | .ldRegs x => r ≤ x
  | _ => False

/-- Every general register is unchanged but the instruction's destinations, and VF only where the spec names a flag
(10_state.md R16, R17, R18). -/
def Obligations.OnlyDestinationsChange : Prop :=
  ∀ (i : Instr) (s t : State) (r : Reg), exec i s = .next t → ¬ mayWrite i r → t.V[r] = s.V[r]

/-- The new `pc` of R55, as a natural number; `a` is the value `RET` would pop. -/
def newPc (i : Instr) (s : State) (a : Addr) : Nat :=
  match i with
  | .jp nnn | .call nnn => nnn.toNat
  | .jpV0 nnn => nnn.toNat + s.V[0].toNat
  | .ret => a.toNat + 2
  | .seImm x nn => s.pc.toNat + if s.V[x] = nn then 4 else 2
  | .sneImm x nn => s.pc.toNat + if s.V[x] ≠ nn then 4 else 2
  | .seReg x y => s.pc.toNat + if s.V[x] = s.V[y] then 4 else 2
  | .sneReg x y => s.pc.toNat + if s.V[x] ≠ s.V[y] then 4 else 2
  | .skp x => s.pc.toNat + if ∃ k : Key, k.val = s.V[x].toNat ∧ s.keys[k] = true then 4 else 2
  | .sknp x => s.pc.toNat + if ∃ k : Key, k.val = s.V[x].toNat ∧ s.keys[k] = false then 4 else 2
  | _ => s.pc.toNat + 2

/-- The table of R55, over every instruction fetched from a reachable state: the new `pc` is the natural number the table
gives, at most 0x10FE, so never wrapped; a cycle that raises an error leaves `pc`. -/
def Obligations.NewPcIsTheTables : Prop :=
  ∀ s : State, s.Inv → s.pc.toNat ≤ 0x0FFE →
    (∀ (i : Instr) (t : State) (a : Addr), s.stack.getLast? = some a ∨ i ≠ .ret → exec i s = .next t →
      t.pc.toNat = newPc i s a ∧ t.pc.toNat ≤ 0x10FE) ∧
    ∀ (e : Fault) (u : State), executeCycle s = .err e u → u.pc = s.pc

/-- A result with the function applied to the state it goes on with. -/
def mapNext (f : State → State) : Host.Outcome State Fault Refusal → Host.Outcome State Fault Refusal
  | .next t => .next (f t)
  | .fault e => .fault e
  | .refused r => .refused r

/-- The keypad latch is read only by `SKP` and `SKNP` and written by no instruction: any other instruction does the same
whatever keys are held, and leaves them held (10_state.md R26, D19). -/
def Obligations.OnlyKeySkipsReadTheKeypad : Prop :=
  ∀ (i : Instr) (s : State) (keys : Vector Bool 16),
    ((∀ x, i ≠ .skp x) → (∀ x, i ≠ .sknp x) →
      exec i { s with keys := keys } = mapNext (fun t => { t with keys := keys }) (exec i s)) ∧
    ∀ t, exec i s = .next t → t.keys = s.keys

/-- No instruction reads `ST`: every instruction does the same whatever `ST` holds, and only `LD ST, Vx` changes it
(10_state.md R22, R28). -/
def Obligations.NoInstructionReadsST : Prop :=
  ∀ (i : Instr) (s : State) (v : Byte),
    exec i { s with ST := v } =
      match i with
      | .ldST _ => exec i s
      | _ => mapNext (fun t => { t with ST := v }) (exec i s)

/-! ### Invariants -/

/-- The invariant holds after reset. -/
def Obligations.ResetMeetsTheInvariant : Prop := State.reset.Inv

/-- Every step keeps the invariant: `pc` at most 0x10FE, so that it never wraps (R20, R21), at most 16 return addresses
(R23), each at most 0x0FFE, and memory in canonical form. -/
def Obligations.StepKeepsTheInvariant : Prop :=
  ∀ s t : State, s.Inv → step s = .next t → t.Inv

/-- Every state that core and host together can reach, through any sequence of the transactions of 40_cycle.md R51 from
a new core with any font, meets the invariant. -/
def Obligations.ReachableStatesMeetTheInvariant : Prop := ∀ s : State, Reach s → s.Inv

/-- Canonical memories that read alike are equal data (the model's own form, log entry 8). -/
def Obligations.CanonicalMemoriesThatReadAlikeAreEqual : Prop :=
  ∀ m m' : Memory, m.wf → m'.wf → (∀ a, m.read a = m'.read a) → m = m'

/-! ### Reset and the host's transactions (70_reset_and_hazards.md, 40_cycle.md) -/

/-- `new()` with any font: the font at 0 to 79, every other byte 0, `pc` 0x200, everything else zero, empty or false
(R115). -/
def Obligations.NewStateIsAsStated : Prop :=
  ∀ font : Vector Byte 80,
    let s := State.newWith font
    (∀ a : Fin 80, s.mem.read a.val = font[a]) ∧ (∀ a, 80 ≤ a → a ≤ 0xFFF → s.mem.read a = 0) ∧
    (∀ r : Reg, s.V[r] = 0) ∧ s.I = 0 ∧ s.pc = 0x200 ∧ s.stack = [] ∧ s.DT = 0 ∧ s.ST = 0 ∧
    (∀ (c : Fin 64) (r : Fin 32), s.disp[c][r] = false) ∧ ∀ k : Key, s.keys[k] = false

/-- The state after reset is `new()` with the default font of R116, glyph A at 0x032 and glyph F at 0x04B among it. -/
def Obligations.ResetHoldsTheDefaultFont : Prop :=
  (∀ h, State.newWith ⟨Config.font.toArray, h⟩ = State.reset) ∧
  State.reset.mem.readBytes 0x000 5 = [0xF0, 0x90, 0x90, 0x90, 0xF0] ∧
  State.reset.mem.readBytes 0x032 5 = [0xF0, 0x90, 0xF0, 0x90, 0x90] ∧
  State.reset.mem.readBytes 0x04B 5 = [0xF0, 0x80, 0xF0, 0x80, 0x80] ∧ State.reset.mem.readBytes 80 2 = [0, 0]

/-- A new core run without a program fetches 0x0000 at 0x200, which is invalid, again and again (R118). -/
def Obligations.NewCoreWithoutProgramFaults : Prop :=
  ∀ font : Vector Byte 80,
    executeCycle (State.newWith font) = .err (.invalidOpcode 0x0000) (State.newWith font)

/-- `load_program`: the bytes from 0x200 on, every other byte and everything else unchanged, `pc` too; more than 3584
bytes are refused whole (R117). That the canonical form of memory is asked for and kept is the model's choice of form
(log entry 8). -/
def Obligations.LoadWritesTheProgramOnly : Prop :=
  ∀ (bytes : List Byte) (s : State), s.mem.wf →
    (bytes.length ≤ 3584 → ∃ t, loadProgram bytes s = .ok t ∧
      (∀ (k : Nat) (h : k < bytes.length), t.mem.read (0x200 + k) = bytes[k]) ∧
      (∀ a, a < 0x200 ∨ a ≥ 0x200 + bytes.length → t.mem.read a = s.mem.read a) ∧
      t = { s with mem := t.mem } ∧ t.mem.wf) ∧
    (bytes.length > 3584 → loadProgram bytes s = .error (.programTooLarge bytes.length))

/-- `set_key`: one key of the latch and nothing else; an index above 15 is refused with nothing changed; no cycle and no
load changes the latch (R59). -/
def Obligations.SetKeyWritesOneKey : Prop :=
  ∀ (k : Nat) (pressed : Bool) (s : State),
    (∀ h : k < 16, ∃ t, setKey k pressed s = .ok t ∧ t.keys[k] = pressed ∧
      (∀ j : Key, j.val ≠ k → t.keys[j] = s.keys[j]) ∧ t = { s with keys := t.keys }) ∧
    (k > 15 → setKey k pressed s = .error (.invalidKeyIndex k)) ∧
    (∀ (b : Bool) (t : State), executeCycle s = .ok b t → t.keys = s.keys) ∧
    ∀ (bytes : List Byte) (t : State), loadProgram bytes s = .ok t → t.keys = s.keys

/-- Placing a word where the next cycle fetches it: the fetch reads exactly that word, no other byte changes, and nothing
but memory does (R34, R54; the model's own interface, log entry 11). -/
def Obligations.PlacedWordIsFetched : Prop :=
  ∀ (s : State) (op : Word), s.mem.wf → s.pc.toNat ≤ 0x0FFE →
    let t := s.withFetchWord 16 op.toNat
    t.mem.read t.pc.toNat ++ t.mem.read (t.pc.toNat + 1) = op ∧
    (∀ a, a ≠ s.pc.toNat → a ≠ s.pc.toNat + 1 → t.mem.read a = s.mem.read a) ∧ t = { s with mem := t.mem } ∧ t.mem.wf
end

