-- ==== Sys2Proof/Laws/Memory.lean ====
section
/-! SUPPORT. The laws of memory: a read after a write, and that every memory operation keeps the canonical form. -/

namespace Sys2Proof.Machine

/-- Addresses strictly rising: the half of the canonical form that reads rest on. -/
abbrev Memory.Sorted (m : Memory) : Prop := m.Pairwise (fun c d => c.1 < d.1)

theorem Memory.wf_nil : Memory.wf [] := ⟨List.Pairwise.nil, fun _ h => nomatch h⟩

theorem Memory.wf.sorted {m : Memory} (h : m.wf) : m.Sorted := h.1

theorem Memory.read_nil (a : Nat) : Memory.read [] a = Memory.background a := rfl

/-- An address below every listed one reads as the background. -/
theorem Memory.read_of_below {m : Memory} {a : Nat} (h : ∀ c ∈ m, a < c.1) : m.read a = Memory.background a := by
  induction m with
  | nil => rfl
  | cons c rest ih =>
    obtain ⟨k, v⟩ := c
    have hc : a < k := h (k, v) (by simp)
    simp only [Memory.read]
    rw [if_neg (by omega)]
    exact ih fun d hd => h d (by simp [hd])

theorem Memory.read_cons {m : Memory} {a : Nat} (b : Byte) (h : ∀ c ∈ m, a < c.1) (a' : Nat) :
    (Memory.cons a b m).read a' = if a = a' then b else m.read a' := by
  unfold Memory.cons
  split
  next hb =>
    split
    next ha => subst ha; rw [Memory.read_of_below h, hb]
    next => rfl
  next => rfl

/-- Whatever a write lists was written or was listed before. -/
theorem Memory.mem_write {m : Memory} {a : Nat} {b : Byte} {c : Host.Cell} (h : c ∈ m.write a b) :
    (c = (a, b) ∧ b ≠ Memory.background a) ∨ c ∈ m := by
  induction m with
  | nil =>
    simp only [Memory.write, Memory.cons] at h
    split at h <;> simp_all
  | cons d rest ih =>
    simp only [Memory.write, Memory.cons] at h
    split at h
    · rcases List.mem_cons.mp h with rfl | h
      · simp
      · rcases ih h with h | h <;> simp [h]
    · split at h <;> split at h
      · exact Or.inr (List.mem_cons_of_mem _ h)
      · rcases List.mem_cons.mp h with h | h
        · exact Or.inl ⟨h, by assumption⟩
        · exact Or.inr (List.mem_cons_of_mem _ h)
      · exact Or.inr h
      · rcases List.mem_cons.mp h with h | h
        · exact Or.inl ⟨h, by assumption⟩
        · exact Or.inr h

/-- Nothing is listed below both the written address and what was listed. -/
theorem Memory.below_write {m : Memory} {a k : Nat} {b : Byte} (hk : k < a) (h : ∀ c ∈ m, k < c.1) :
    ∀ c ∈ m.write a b, k < c.1 := by
  intro c hc
  rcases Memory.mem_write hc with ⟨rfl, -⟩ | hc
  · exact hk
  · exact h c hc

/-- A read after a write: the written byte at its address, every other address as before. -/
theorem Memory.read_write {m : Memory} (hs : m.Sorted) (a : Nat) (b : Byte) (a' : Nat) :
    (m.write a b).read a' = if a = a' then b else m.read a' := by
  induction m with
  | nil => simp only [Memory.write]; exact Memory.read_cons b (by simp) a'
  | cons c rest ih =>
    obtain ⟨hc, hrest⟩ := List.pairwise_cons.mp hs
    simp only [Memory.write]
    split
    next hlt =>
      simp only [Memory.read, ih hrest]
      by_cases h : c.1 = a'
      · rw [if_pos h, if_neg (by omega), if_pos h]
      · rw [if_neg h, if_neg h]
    next hge =>
      split
      next heq =>
        rw [Memory.read_cons b (by simpa [← heq] using hc)]
        by_cases h : a = a'
        · rw [if_pos h, if_pos h]
        · rw [if_neg h, if_neg h]; simp only [Memory.read]; rw [if_neg (by omega)]
      next hne =>
        refine Memory.read_cons b ?_ a'
        intro d hd
        rcases List.mem_cons.mp hd with rfl | hd
        · omega
        · have := hc d hd; omega

theorem Memory.sorted_cons {m : Memory} {a : Nat} (b : Byte) (hs : m.Sorted) (h : ∀ c ∈ m, a < c.1) :
    (Memory.cons a b m).Sorted := by
  unfold Memory.cons
  split
  · exact hs
  · exact List.pairwise_cons.mpr ⟨h, hs⟩

theorem Memory.sorted_write {m : Memory} (hs : m.Sorted) (a : Nat) (b : Byte) : (m.write a b).Sorted := by
  induction m with
  | nil => exact Memory.sorted_cons b List.Pairwise.nil (by simp)
  | cons c rest ih =>
    obtain ⟨hc, hrest⟩ := List.pairwise_cons.mp hs
    simp only [Memory.write]
    split
    next hlt => exact List.pairwise_cons.mpr ⟨Memory.below_write hlt hc, ih hrest⟩
    next hge =>
      split
      next heq => exact Memory.sorted_cons b hrest (by simpa [← heq] using hc)
      next hne =>
        refine Memory.sorted_cons b hs ?_
        intro d hd
        rcases List.mem_cons.mp hd with rfl | hd
        · omega
        · have := hc d hd; omega

/-- A write inside the address space keeps the canonical form. -/
theorem Memory.wf_write {m : Memory} (h : m.wf) {a : Nat} (ha : a < 4096) (b : Byte) : (m.write a b).wf := by
  refine ⟨Memory.sorted_write h.sorted a b, fun c hc => ?_⟩
  rcases Memory.mem_write hc with ⟨rfl, hb⟩ | hc
  · exact ⟨ha, hb⟩
  · exact h.2 c hc

theorem Memory.sorted_writeBytes {m : Memory} (hs : m.Sorted) (a : Nat) (bs : List Byte) :
    (m.writeBytes a bs).Sorted := by
  induction bs generalizing m a with
  | nil => exact hs
  | cons b bs ih => exact ih (Memory.sorted_write hs a b) (a + 1)

/-- A store inside the address space keeps the canonical form. -/
theorem Memory.wf_writeBytes {m : Memory} (h : m.wf) {a : Nat} {bs : List Byte} (ha : a + bs.length ≤ 4096) :
    (m.writeBytes a bs).wf := by
  induction bs generalizing m a with
  | nil => exact h
  | cons b bs ih =>
    simp only [List.length_cons] at ha
    exact ih (Memory.wf_write h (by omega) b) (by omega)

/-- A read after a store of several bytes: the stored byte inside the stored range, every other address as before. -/
theorem Memory.read_writeBytes {m : Memory} (hs : m.Sorted) (a : Nat) (bs : List Byte) (a' : Nat) :
    (m.writeBytes a bs).read a' = if a ≤ a' then bs.getD (a' - a) (m.read a') else m.read a' := by
  induction bs generalizing m a with
  | nil => simp [Memory.writeBytes]
  | cons b bs ih =>
    rw [Memory.writeBytes, ih (Memory.sorted_write hs a b), Memory.read_write hs]
    rcases Nat.lt_trichotomy a a' with h | rfl | h
    · have hk : a' - a = (a' - (a + 1)) + 1 := by omega
      simp [show a + 1 ≤ a' by omega, show a ≠ a' by omega, show a ≤ a' by omega, hk]
    · simp
    · simp [show ¬ a + 1 ≤ a' by omega, show a ≠ a' by omega, show ¬ a ≤ a' by omega]

theorem Memory.length_readBytes (m : Memory) (a n : Nat) : (m.readBytes a n).length = n := by
  induction n generalizing a with
  | zero => rfl
  | succ n ih => simp [Memory.readBytes, ih]

/-- The k-th byte read is the byte at the k-th address. -/
theorem Memory.getElem_readBytes (m : Memory) (a n k : Nat) (h : k < (m.readBytes a n).length) :
    (m.readBytes a n)[k] = m.read (a + k) := by
  induction n generalizing a k with
  | zero => simp [Memory.readBytes] at h
  | succ n ih =>
    cases k with
    | zero => rfl
    | succ k =>
      simp only [Memory.readBytes, List.getElem_cons_succ]
      rw [ih, Nat.add_right_comm]; rfl

end Sys2Proof.Machine
end

