-- ==== Sys2Proof/Laws/State.lean ====
section
/-! SUPPORT. The small lemmas of State: one per field per update, true by rfl, so that no later proof unfolds a record
update. -/

namespace Sys2Proof.Machine

variable (s : State)

/-! ### writeV -/

@[simp] theorem State.writeV_mem (x : Reg) (b : Byte) : (s.writeV x b).mem = s.mem := rfl
@[simp] theorem State.writeV_V (x : Reg) (b : Byte) : (s.writeV x b).V = s.V.set x b := rfl
@[simp] theorem State.writeV_I (x : Reg) (b : Byte) : (s.writeV x b).I = s.I := rfl
@[simp] theorem State.writeV_pc (x : Reg) (b : Byte) : (s.writeV x b).pc = s.pc := rfl
@[simp] theorem State.writeV_stack (x : Reg) (b : Byte) : (s.writeV x b).stack = s.stack := rfl
@[simp] theorem State.writeV_DT (x : Reg) (b : Byte) : (s.writeV x b).DT = s.DT := rfl
@[simp] theorem State.writeV_ST (x : Reg) (b : Byte) : (s.writeV x b).ST = s.ST := rfl
@[simp] theorem State.writeV_disp (x : Reg) (b : Byte) : (s.writeV x b).disp = s.disp := rfl
@[simp] theorem State.writeV_keys (x : Reg) (b : Byte) : (s.writeV x b).keys = s.keys := rfl
@[simp] theorem State.writeV_tone (x : Reg) (b : Byte) : (s.writeV x b).tone = s.tone := rfl
@[simp] theorem State.writeV_keyProvider (x : Reg) (b : Byte) : (s.writeV x b).keyProvider = s.keyProvider := rfl
@[simp] theorem State.writeV_keyWaits (x : Reg) (b : Byte) : (s.writeV x b).keyWaits = s.keyWaits := rfl
@[simp] theorem State.writeV_rndDraws (x : Reg) (b : Byte) : (s.writeV x b).rndDraws = s.rndDraws := rfl

/-! ### writeResultFlag -/

@[simp] theorem State.writeResultFlag_mem (x : Reg) (r f : Byte) : (s.writeResultFlag x r f).mem = s.mem := rfl
@[simp] theorem State.writeResultFlag_V (x : Reg) (r f : Byte) : (s.writeResultFlag x r f).V = (s.V.set x r).set VF f := rfl
@[simp] theorem State.writeResultFlag_I (x : Reg) (r f : Byte) : (s.writeResultFlag x r f).I = s.I := rfl
@[simp] theorem State.writeResultFlag_pc (x : Reg) (r f : Byte) : (s.writeResultFlag x r f).pc = s.pc := rfl
@[simp] theorem State.writeResultFlag_stack (x : Reg) (r f : Byte) : (s.writeResultFlag x r f).stack = s.stack := rfl
@[simp] theorem State.writeResultFlag_DT (x : Reg) (r f : Byte) : (s.writeResultFlag x r f).DT = s.DT := rfl
@[simp] theorem State.writeResultFlag_ST (x : Reg) (r f : Byte) : (s.writeResultFlag x r f).ST = s.ST := rfl
@[simp] theorem State.writeResultFlag_disp (x : Reg) (r f : Byte) : (s.writeResultFlag x r f).disp = s.disp := rfl
@[simp] theorem State.writeResultFlag_keys (x : Reg) (r f : Byte) : (s.writeResultFlag x r f).keys = s.keys := rfl
@[simp] theorem State.writeResultFlag_tone (x : Reg) (r f : Byte) : (s.writeResultFlag x r f).tone = s.tone := rfl
@[simp] theorem State.writeResultFlag_keyProvider (x : Reg) (r f : Byte) : (s.writeResultFlag x r f).keyProvider = s.keyProvider := rfl
@[simp] theorem State.writeResultFlag_keyWaits (x : Reg) (r f : Byte) : (s.writeResultFlag x r f).keyWaits = s.keyWaits := rfl
@[simp] theorem State.writeResultFlag_rndDraws (x : Reg) (r f : Byte) : (s.writeResultFlag x r f).rndDraws = s.rndDraws := rfl

/-! ### setI -/

@[simp] theorem State.setI_mem (a : Addr) : (s.setI a).mem = s.mem := rfl
@[simp] theorem State.setI_V (a : Addr) : (s.setI a).V = s.V := rfl
@[simp] theorem State.setI_I (a : Addr) : (s.setI a).I = a := rfl
@[simp] theorem State.setI_pc (a : Addr) : (s.setI a).pc = s.pc := rfl
@[simp] theorem State.setI_stack (a : Addr) : (s.setI a).stack = s.stack := rfl
@[simp] theorem State.setI_DT (a : Addr) : (s.setI a).DT = s.DT := rfl
@[simp] theorem State.setI_ST (a : Addr) : (s.setI a).ST = s.ST := rfl
@[simp] theorem State.setI_disp (a : Addr) : (s.setI a).disp = s.disp := rfl
@[simp] theorem State.setI_keys (a : Addr) : (s.setI a).keys = s.keys := rfl
@[simp] theorem State.setI_tone (a : Addr) : (s.setI a).tone = s.tone := rfl
@[simp] theorem State.setI_keyProvider (a : Addr) : (s.setI a).keyProvider = s.keyProvider := rfl
@[simp] theorem State.setI_keyWaits (a : Addr) : (s.setI a).keyWaits = s.keyWaits := rfl
@[simp] theorem State.setI_rndDraws (a : Addr) : (s.setI a).rndDraws = s.rndDraws := rfl

/-! ### setPc -/

@[simp] theorem State.setPc_mem (a : Addr) : (s.setPc a).mem = s.mem := rfl
@[simp] theorem State.setPc_V (a : Addr) : (s.setPc a).V = s.V := rfl
@[simp] theorem State.setPc_I (a : Addr) : (s.setPc a).I = s.I := rfl
@[simp] theorem State.setPc_pc (a : Addr) : (s.setPc a).pc = a := rfl
@[simp] theorem State.setPc_stack (a : Addr) : (s.setPc a).stack = s.stack := rfl
@[simp] theorem State.setPc_DT (a : Addr) : (s.setPc a).DT = s.DT := rfl
@[simp] theorem State.setPc_ST (a : Addr) : (s.setPc a).ST = s.ST := rfl
@[simp] theorem State.setPc_disp (a : Addr) : (s.setPc a).disp = s.disp := rfl
@[simp] theorem State.setPc_keys (a : Addr) : (s.setPc a).keys = s.keys := rfl
@[simp] theorem State.setPc_tone (a : Addr) : (s.setPc a).tone = s.tone := rfl
@[simp] theorem State.setPc_keyProvider (a : Addr) : (s.setPc a).keyProvider = s.keyProvider := rfl
@[simp] theorem State.setPc_keyWaits (a : Addr) : (s.setPc a).keyWaits = s.keyWaits := rfl
@[simp] theorem State.setPc_rndDraws (a : Addr) : (s.setPc a).rndDraws = s.rndDraws := rfl

/-! ### advance -/

@[simp] theorem State.advance_mem : (s.advance).mem = s.mem := rfl
@[simp] theorem State.advance_V : (s.advance).V = s.V := rfl
@[simp] theorem State.advance_I : (s.advance).I = s.I := rfl
@[simp] theorem State.advance_pc : (s.advance).pc = s.pc + 2 := rfl
@[simp] theorem State.advance_stack : (s.advance).stack = s.stack := rfl
@[simp] theorem State.advance_DT : (s.advance).DT = s.DT := rfl
@[simp] theorem State.advance_ST : (s.advance).ST = s.ST := rfl
@[simp] theorem State.advance_disp : (s.advance).disp = s.disp := rfl
@[simp] theorem State.advance_keys : (s.advance).keys = s.keys := rfl
@[simp] theorem State.advance_tone : (s.advance).tone = s.tone := rfl
@[simp] theorem State.advance_keyProvider : (s.advance).keyProvider = s.keyProvider := rfl
@[simp] theorem State.advance_keyWaits : (s.advance).keyWaits = s.keyWaits := rfl
@[simp] theorem State.advance_rndDraws : (s.advance).rndDraws = s.rndDraws := rfl

/-! ### skipIf -/

@[simp] theorem State.skipIf_mem (c : Bool) : (s.skipIf c).mem = s.mem := rfl
@[simp] theorem State.skipIf_V (c : Bool) : (s.skipIf c).V = s.V := rfl
@[simp] theorem State.skipIf_I (c : Bool) : (s.skipIf c).I = s.I := rfl
@[simp] theorem State.skipIf_pc (c : Bool) : (s.skipIf c).pc = s.pc + if c then 4 else 2 := rfl
@[simp] theorem State.skipIf_stack (c : Bool) : (s.skipIf c).stack = s.stack := rfl
@[simp] theorem State.skipIf_DT (c : Bool) : (s.skipIf c).DT = s.DT := rfl
@[simp] theorem State.skipIf_ST (c : Bool) : (s.skipIf c).ST = s.ST := rfl
@[simp] theorem State.skipIf_disp (c : Bool) : (s.skipIf c).disp = s.disp := rfl
@[simp] theorem State.skipIf_keys (c : Bool) : (s.skipIf c).keys = s.keys := rfl
@[simp] theorem State.skipIf_tone (c : Bool) : (s.skipIf c).tone = s.tone := rfl
@[simp] theorem State.skipIf_keyProvider (c : Bool) : (s.skipIf c).keyProvider = s.keyProvider := rfl
@[simp] theorem State.skipIf_keyWaits (c : Bool) : (s.skipIf c).keyWaits = s.keyWaits := rfl
@[simp] theorem State.skipIf_rndDraws (c : Bool) : (s.skipIf c).rndDraws = s.rndDraws := rfl

/-! ### setDT -/

@[simp] theorem State.setDT_mem (v : Byte) : (s.setDT v).mem = s.mem := rfl
@[simp] theorem State.setDT_V (v : Byte) : (s.setDT v).V = s.V := rfl
@[simp] theorem State.setDT_I (v : Byte) : (s.setDT v).I = s.I := rfl
@[simp] theorem State.setDT_pc (v : Byte) : (s.setDT v).pc = s.pc := rfl
@[simp] theorem State.setDT_stack (v : Byte) : (s.setDT v).stack = s.stack := rfl
@[simp] theorem State.setDT_DT (v : Byte) : (s.setDT v).DT = v := rfl
@[simp] theorem State.setDT_ST (v : Byte) : (s.setDT v).ST = s.ST := rfl
@[simp] theorem State.setDT_disp (v : Byte) : (s.setDT v).disp = s.disp := rfl
@[simp] theorem State.setDT_keys (v : Byte) : (s.setDT v).keys = s.keys := rfl
@[simp] theorem State.setDT_tone (v : Byte) : (s.setDT v).tone = s.tone := rfl
@[simp] theorem State.setDT_keyProvider (v : Byte) : (s.setDT v).keyProvider = s.keyProvider := rfl
@[simp] theorem State.setDT_keyWaits (v : Byte) : (s.setDT v).keyWaits = s.keyWaits := rfl
@[simp] theorem State.setDT_rndDraws (v : Byte) : (s.setDT v).rndDraws = s.rndDraws := rfl

/-! ### setST -/

@[simp] theorem State.setST_mem (v : Byte) : (s.setST v).mem = s.mem := rfl
@[simp] theorem State.setST_V (v : Byte) : (s.setST v).V = s.V := rfl
@[simp] theorem State.setST_I (v : Byte) : (s.setST v).I = s.I := rfl
@[simp] theorem State.setST_pc (v : Byte) : (s.setST v).pc = s.pc := rfl
@[simp] theorem State.setST_stack (v : Byte) : (s.setST v).stack = s.stack := rfl
@[simp] theorem State.setST_DT (v : Byte) : (s.setST v).DT = s.DT := rfl
@[simp] theorem State.setST_ST (v : Byte) : (s.setST v).ST = v := rfl
@[simp] theorem State.setST_disp (v : Byte) : (s.setST v).disp = s.disp := rfl
@[simp] theorem State.setST_keys (v : Byte) : (s.setST v).keys = s.keys := rfl
@[simp] theorem State.setST_tone (v : Byte) : (s.setST v).tone = s.tone := rfl
@[simp] theorem State.setST_keyProvider (v : Byte) : (s.setST v).keyProvider = s.keyProvider := rfl
@[simp] theorem State.setST_keyWaits (v : Byte) : (s.setST v).keyWaits = s.keyWaits := rfl
@[simp] theorem State.setST_rndDraws (v : Byte) : (s.setST v).rndDraws = s.rndDraws := rfl

/-! ### setStack -/

@[simp] theorem State.setStack_mem (l : List Addr) : (s.setStack l).mem = s.mem := rfl
@[simp] theorem State.setStack_V (l : List Addr) : (s.setStack l).V = s.V := rfl
@[simp] theorem State.setStack_I (l : List Addr) : (s.setStack l).I = s.I := rfl
@[simp] theorem State.setStack_pc (l : List Addr) : (s.setStack l).pc = s.pc := rfl
@[simp] theorem State.setStack_stack (l : List Addr) : (s.setStack l).stack = l := rfl
@[simp] theorem State.setStack_DT (l : List Addr) : (s.setStack l).DT = s.DT := rfl
@[simp] theorem State.setStack_ST (l : List Addr) : (s.setStack l).ST = s.ST := rfl
@[simp] theorem State.setStack_disp (l : List Addr) : (s.setStack l).disp = s.disp := rfl
@[simp] theorem State.setStack_keys (l : List Addr) : (s.setStack l).keys = s.keys := rfl
@[simp] theorem State.setStack_tone (l : List Addr) : (s.setStack l).tone = s.tone := rfl
@[simp] theorem State.setStack_keyProvider (l : List Addr) : (s.setStack l).keyProvider = s.keyProvider := rfl
@[simp] theorem State.setStack_keyWaits (l : List Addr) : (s.setStack l).keyWaits = s.keyWaits := rfl
@[simp] theorem State.setStack_rndDraws (l : List Addr) : (s.setStack l).rndDraws = s.rndDraws := rfl

/-! ### push -/

@[simp] theorem State.push_mem (a : Addr) : (s.push a).mem = s.mem := rfl
@[simp] theorem State.push_V (a : Addr) : (s.push a).V = s.V := rfl
@[simp] theorem State.push_I (a : Addr) : (s.push a).I = s.I := rfl
@[simp] theorem State.push_pc (a : Addr) : (s.push a).pc = s.pc := rfl
@[simp] theorem State.push_stack (a : Addr) : (s.push a).stack = s.stack ++ [a] := rfl
@[simp] theorem State.push_DT (a : Addr) : (s.push a).DT = s.DT := rfl
@[simp] theorem State.push_ST (a : Addr) : (s.push a).ST = s.ST := rfl
@[simp] theorem State.push_disp (a : Addr) : (s.push a).disp = s.disp := rfl
@[simp] theorem State.push_keys (a : Addr) : (s.push a).keys = s.keys := rfl
@[simp] theorem State.push_tone (a : Addr) : (s.push a).tone = s.tone := rfl
@[simp] theorem State.push_keyProvider (a : Addr) : (s.push a).keyProvider = s.keyProvider := rfl
@[simp] theorem State.push_keyWaits (a : Addr) : (s.push a).keyWaits = s.keyWaits := rfl
@[simp] theorem State.push_rndDraws (a : Addr) : (s.push a).rndDraws = s.rndDraws := rfl

/-! ### setMem -/

@[simp] theorem State.setMem_mem (m : Memory) : (s.setMem m).mem = m := rfl
@[simp] theorem State.setMem_V (m : Memory) : (s.setMem m).V = s.V := rfl
@[simp] theorem State.setMem_I (m : Memory) : (s.setMem m).I = s.I := rfl
@[simp] theorem State.setMem_pc (m : Memory) : (s.setMem m).pc = s.pc := rfl
@[simp] theorem State.setMem_stack (m : Memory) : (s.setMem m).stack = s.stack := rfl
@[simp] theorem State.setMem_DT (m : Memory) : (s.setMem m).DT = s.DT := rfl
@[simp] theorem State.setMem_ST (m : Memory) : (s.setMem m).ST = s.ST := rfl
@[simp] theorem State.setMem_disp (m : Memory) : (s.setMem m).disp = s.disp := rfl
@[simp] theorem State.setMem_keys (m : Memory) : (s.setMem m).keys = s.keys := rfl
@[simp] theorem State.setMem_tone (m : Memory) : (s.setMem m).tone = s.tone := rfl
@[simp] theorem State.setMem_keyProvider (m : Memory) : (s.setMem m).keyProvider = s.keyProvider := rfl
@[simp] theorem State.setMem_keyWaits (m : Memory) : (s.setMem m).keyWaits = s.keyWaits := rfl
@[simp] theorem State.setMem_rndDraws (m : Memory) : (s.setMem m).rndDraws = s.rndDraws := rfl

/-! ### setDisp -/

@[simp] theorem State.setDisp_mem (d : Display) : (s.setDisp d).mem = s.mem := rfl
@[simp] theorem State.setDisp_V (d : Display) : (s.setDisp d).V = s.V := rfl
@[simp] theorem State.setDisp_I (d : Display) : (s.setDisp d).I = s.I := rfl
@[simp] theorem State.setDisp_pc (d : Display) : (s.setDisp d).pc = s.pc := rfl
@[simp] theorem State.setDisp_stack (d : Display) : (s.setDisp d).stack = s.stack := rfl
@[simp] theorem State.setDisp_DT (d : Display) : (s.setDisp d).DT = s.DT := rfl
@[simp] theorem State.setDisp_ST (d : Display) : (s.setDisp d).ST = s.ST := rfl
@[simp] theorem State.setDisp_disp (d : Display) : (s.setDisp d).disp = d := rfl
@[simp] theorem State.setDisp_keys (d : Display) : (s.setDisp d).keys = s.keys := rfl
@[simp] theorem State.setDisp_tone (d : Display) : (s.setDisp d).tone = s.tone := rfl
@[simp] theorem State.setDisp_keyProvider (d : Display) : (s.setDisp d).keyProvider = s.keyProvider := rfl
@[simp] theorem State.setDisp_keyWaits (d : Display) : (s.setDisp d).keyWaits = s.keyWaits := rfl
@[simp] theorem State.setDisp_rndDraws (d : Display) : (s.setDisp d).rndDraws = s.rndDraws := rfl

/-! ### setKeys -/

@[simp] theorem State.setKeys_mem (k : Vector Bool 16) : (s.setKeys k).mem = s.mem := rfl
@[simp] theorem State.setKeys_V (k : Vector Bool 16) : (s.setKeys k).V = s.V := rfl
@[simp] theorem State.setKeys_I (k : Vector Bool 16) : (s.setKeys k).I = s.I := rfl
@[simp] theorem State.setKeys_pc (k : Vector Bool 16) : (s.setKeys k).pc = s.pc := rfl
@[simp] theorem State.setKeys_stack (k : Vector Bool 16) : (s.setKeys k).stack = s.stack := rfl
@[simp] theorem State.setKeys_DT (k : Vector Bool 16) : (s.setKeys k).DT = s.DT := rfl
@[simp] theorem State.setKeys_ST (k : Vector Bool 16) : (s.setKeys k).ST = s.ST := rfl
@[simp] theorem State.setKeys_disp (k : Vector Bool 16) : (s.setKeys k).disp = s.disp := rfl
@[simp] theorem State.setKeys_keys (k : Vector Bool 16) : (s.setKeys k).keys = k := rfl
@[simp] theorem State.setKeys_tone (k : Vector Bool 16) : (s.setKeys k).tone = s.tone := rfl
@[simp] theorem State.setKeys_keyProvider (k : Vector Bool 16) : (s.setKeys k).keyProvider = s.keyProvider := rfl
@[simp] theorem State.setKeys_keyWaits (k : Vector Bool 16) : (s.setKeys k).keyWaits = s.keyWaits := rfl
@[simp] theorem State.setKeys_rndDraws (k : Vector Bool 16) : (s.setKeys k).rndDraws = s.rndDraws := rfl

/-! ### setKeyProvider -/

@[simp] theorem State.setKeyProvider_mem (p : KeyProvider) : (s.setKeyProvider p).mem = s.mem := rfl
@[simp] theorem State.setKeyProvider_V (p : KeyProvider) : (s.setKeyProvider p).V = s.V := rfl
@[simp] theorem State.setKeyProvider_I (p : KeyProvider) : (s.setKeyProvider p).I = s.I := rfl
@[simp] theorem State.setKeyProvider_pc (p : KeyProvider) : (s.setKeyProvider p).pc = s.pc := rfl
@[simp] theorem State.setKeyProvider_stack (p : KeyProvider) : (s.setKeyProvider p).stack = s.stack := rfl
@[simp] theorem State.setKeyProvider_DT (p : KeyProvider) : (s.setKeyProvider p).DT = s.DT := rfl
@[simp] theorem State.setKeyProvider_ST (p : KeyProvider) : (s.setKeyProvider p).ST = s.ST := rfl
@[simp] theorem State.setKeyProvider_disp (p : KeyProvider) : (s.setKeyProvider p).disp = s.disp := rfl
@[simp] theorem State.setKeyProvider_keys (p : KeyProvider) : (s.setKeyProvider p).keys = s.keys := rfl
@[simp] theorem State.setKeyProvider_tone (p : KeyProvider) : (s.setKeyProvider p).tone = s.tone := rfl
@[simp] theorem State.setKeyProvider_keyProvider (p : KeyProvider) : (s.setKeyProvider p).keyProvider = p := rfl
@[simp] theorem State.setKeyProvider_keyWaits (p : KeyProvider) : (s.setKeyProvider p).keyWaits = s.keyWaits := rfl
@[simp] theorem State.setKeyProvider_rndDraws (p : KeyProvider) : (s.setKeyProvider p).rndDraws = s.rndDraws := rfl

/-! ### countDraw -/

@[simp] theorem State.countDraw_mem : (s.countDraw).mem = s.mem := rfl
@[simp] theorem State.countDraw_V : (s.countDraw).V = s.V := rfl
@[simp] theorem State.countDraw_I : (s.countDraw).I = s.I := rfl
@[simp] theorem State.countDraw_pc : (s.countDraw).pc = s.pc := rfl
@[simp] theorem State.countDraw_stack : (s.countDraw).stack = s.stack := rfl
@[simp] theorem State.countDraw_DT : (s.countDraw).DT = s.DT := rfl
@[simp] theorem State.countDraw_ST : (s.countDraw).ST = s.ST := rfl
@[simp] theorem State.countDraw_disp : (s.countDraw).disp = s.disp := rfl
@[simp] theorem State.countDraw_keys : (s.countDraw).keys = s.keys := rfl
@[simp] theorem State.countDraw_tone : (s.countDraw).tone = s.tone := rfl
@[simp] theorem State.countDraw_keyProvider : (s.countDraw).keyProvider = s.keyProvider := rfl
@[simp] theorem State.countDraw_keyWaits : (s.countDraw).keyWaits = s.keyWaits := rfl
@[simp] theorem State.countDraw_rndDraws : (s.countDraw).rndDraws = s.rndDraws + 1 := rfl

/-! ### countKeyWait -/

@[simp] theorem State.countKeyWait_mem : (s.countKeyWait).mem = s.mem := rfl
@[simp] theorem State.countKeyWait_V : (s.countKeyWait).V = s.V := rfl
@[simp] theorem State.countKeyWait_I : (s.countKeyWait).I = s.I := rfl
@[simp] theorem State.countKeyWait_pc : (s.countKeyWait).pc = s.pc := rfl
@[simp] theorem State.countKeyWait_stack : (s.countKeyWait).stack = s.stack := rfl
@[simp] theorem State.countKeyWait_DT : (s.countKeyWait).DT = s.DT := rfl
@[simp] theorem State.countKeyWait_ST : (s.countKeyWait).ST = s.ST := rfl
@[simp] theorem State.countKeyWait_disp : (s.countKeyWait).disp = s.disp := rfl
@[simp] theorem State.countKeyWait_keys : (s.countKeyWait).keys = s.keys := rfl
@[simp] theorem State.countKeyWait_tone : (s.countKeyWait).tone = s.tone := rfl
@[simp] theorem State.countKeyWait_keyProvider : (s.countKeyWait).keyProvider = s.keyProvider := rfl
@[simp] theorem State.countKeyWait_keyWaits : (s.countKeyWait).keyWaits = s.keyWaits + 1 := rfl
@[simp] theorem State.countKeyWait_rndDraws : (s.countKeyWait).rndDraws = s.rndDraws := rfl

/-! ### loadRegs -/

@[simp] theorem State.loadRegs_mem (base : Nat) (x : Reg) : (s.loadRegs base x).mem = s.mem := rfl
@[simp] theorem State.loadRegs_I (base : Nat) (x : Reg) : (s.loadRegs base x).I = s.I := rfl
@[simp] theorem State.loadRegs_pc (base : Nat) (x : Reg) : (s.loadRegs base x).pc = s.pc := rfl
@[simp] theorem State.loadRegs_stack (base : Nat) (x : Reg) : (s.loadRegs base x).stack = s.stack := rfl
@[simp] theorem State.loadRegs_DT (base : Nat) (x : Reg) : (s.loadRegs base x).DT = s.DT := rfl
@[simp] theorem State.loadRegs_ST (base : Nat) (x : Reg) : (s.loadRegs base x).ST = s.ST := rfl
@[simp] theorem State.loadRegs_disp (base : Nat) (x : Reg) : (s.loadRegs base x).disp = s.disp := rfl
@[simp] theorem State.loadRegs_keys (base : Nat) (x : Reg) : (s.loadRegs base x).keys = s.keys := rfl
@[simp] theorem State.loadRegs_tone (base : Nat) (x : Reg) : (s.loadRegs base x).tone = s.tone := rfl
@[simp] theorem State.loadRegs_keyProvider (base : Nat) (x : Reg) : (s.loadRegs base x).keyProvider = s.keyProvider := rfl
@[simp] theorem State.loadRegs_keyWaits (base : Nat) (x : Reg) : (s.loadRegs base x).keyWaits = s.keyWaits := rfl
@[simp] theorem State.loadRegs_rndDraws (base : Nat) (x : Reg) : (s.loadRegs base x).rndDraws = s.rndDraws := rfl

/-! ### tick -/

@[simp] theorem State.tick_mem : (s.tick).mem = s.mem := rfl
@[simp] theorem State.tick_V : (s.tick).V = s.V := rfl
@[simp] theorem State.tick_I : (s.tick).I = s.I := rfl
@[simp] theorem State.tick_pc : (s.tick).pc = s.pc := rfl
@[simp] theorem State.tick_stack : (s.tick).stack = s.stack := rfl
@[simp] theorem State.tick_DT : (s.tick).DT = countdown s.DT := rfl
@[simp] theorem State.tick_ST : (s.tick).ST = countdown s.ST := rfl
@[simp] theorem State.tick_disp : (s.tick).disp = s.disp := rfl
@[simp] theorem State.tick_keys : (s.tick).keys = s.keys := rfl
@[simp] theorem State.tick_tone : (s.tick).tone = (s.ST == 1) := rfl
@[simp] theorem State.tick_keyProvider : (s.tick).keyProvider = s.keyProvider := rfl
@[simp] theorem State.tick_keyWaits : (s.tick).keyWaits = s.keyWaits := rfl
@[simp] theorem State.tick_rndDraws : (s.tick).rndDraws = s.rndDraws := rfl

/-! ### Reading a register after a write -/

theorem State.readV_writeV (x r : Reg) (b : Byte) : (s.writeV x b).readV r = if x = r then b else s.readV r := by
  simp [State.readV, Vector.getElem_set, Fin.ext_iff]

theorem State.readV_loadRegs (base : Nat) (x r : Reg) :
    (s.loadRegs base x).readV r = if r.val ≤ x.val then s.mem.read (base + r.val) else s.readV r := by
  simp [State.readV, State.loadRegs]

end Sys2Proof.Machine
end

