-- ==== Sys2Proof/Laws/Ops.lean ====
section
/-! SUPPORT. One lemma for each shared operation that says everything it can do. -/

namespace Sys2Proof.Machine

variable {s t : State}

/-- The range check answers the next state exactly when the whole access lies in memory (R33). -/
theorem withRange_eq_next {len : Nat} {u : State} :
    s.withRange len u = .next t ↔ inMemory s.I len = true ∧ u = t := by
  unfold State.withRange raise
  split <;> simp_all

/-- The range check's only error (R33). -/
theorem withRange_eq_fault {len : Nat} {u : State} {e : Fault} :
    s.withRange len u = .fault e ↔ inMemory s.I len = false ∧ e = .memoryOutOfRange s.I len := by
  unfold State.withRange raise
  by_cases h : inMemory s.I len <;> simp [h, eq_comm]

theorem withRange_ne_refused {len : Nat} {u : State} {r : Refusal} : s.withRange len u ≠ .refused r := by
  unfold State.withRange raise
  split <;> simp

theorem inMemory_iff {base : Addr} {len : Nat} : inMemory base len = true ↔ len = 0 ∨ base.toNat + len ≤ 4096 := by
  simp [inMemory]

/-- The end of a cycle goes on exactly when the instruction did, with one tick (R56). -/
theorem finishCycle_eq_next {r : Result} : finishCycle r = .next t ↔ ∃ u, r = .next u ∧ u.tick = t := by
  cases r <;> simp [finishCycle]

theorem finishCycle_eq_fault {r : Result} {e : Fault} : finishCycle r = .fault e ↔ r = .fault e := by
  cases r <;> simp [finishCycle]

/-- The fetch answers an instruction exactly when `pc` is in range and the word decodes to it (R54). -/
theorem fetch_eq_ok {i : Instr} :
    s.fetch = .ok i ↔ s.pc.toNat ≤ 0x0FFE ∧ decode s.fetchWord = .instr i := by
  unfold State.fetch
  split
  · simp_all
  · split <;> simp_all

/-- The fetch's two errors, in their order (R103). -/
theorem fetch_eq_error {e : Fault} :
    s.fetch = .error e ↔ (s.pc.toNat > 0x0FFE ∧ e = .pcOutOfRange s.pc) ∨
      (s.pc.toNat ≤ 0x0FFE ∧ ∃ op, decode s.fetchWord = .invalidOpcode op ∧ e = .invalidOpcode op) := by
  unfold State.fetch
  by_cases h : s.pc.toNat > Config.pcMax
  · simp [h, Nat.not_le.mpr h, eq_comm]
  · cases hd : decode s.fetchWord <;> simp [h, Nat.le_of_not_lt h, eq_comm]

/-- What a cycle whose instruction goes on did before its tick (R53). -/
theorem fetchAndExec_eq_next : fetchAndExec s = .next t ↔ ∃ i, s.fetch = .ok i ∧ exec i s = .next t := by
  unfold fetchAndExec
  cases s.fetch <;> simp [raise]

/-- The fetch raised the error, or the instruction did (R53, R103). -/
theorem fetchAndExec_eq_fault {e : Fault} :
    fetchAndExec s = .fault e ↔ s.fetch = .error e ∨ ∃ i, s.fetch = .ok i ∧ exec i s = .fault e := by
  unfold fetchAndExec
  cases s.fetch <;> simp [raise]

/-- The step as fetch, execute and tick in one line (R53). -/
theorem step_eq_match :
    step s = match s.fetch with
      | .error e => .fault e
      | .ok i => finishCycle (exec i s) := by
  unfold step fetchAndExec
  cases s.fetch <;> rfl

/-- What a step that goes on did: it fetched an instruction, executed it, and ticked (R53). -/
theorem step_eq_next : step s = .next t ↔ ∃ i u, s.fetch = .ok i ∧ exec i s = .next u ∧ u.tick = t := by
  simp only [step, finishCycle_eq_next, fetchAndExec_eq_next]
  aesop

/-- What a step that ends in an error did: the fetch raised it, or the instruction did (R53, R103). -/
theorem step_eq_fault {e : Fault} :
    step s = .fault e ↔ s.fetch = .error e ∨ ∃ i, s.fetch = .ok i ∧ exec i s = .fault e := by
  rw [step, finishCycle_eq_fault, fetchAndExec_eq_fault]

/-- A cycle returns `Ok` exactly when the step goes on, with the tone the step hands to the environment (R57). -/
theorem executeCycle_eq_ok {b : Bool} : executeCycle s = .ok b t ↔ step s = .next t ∧ b = t.tone := by
  unfold executeCycle step
  cases fetchAndExec s <;> simp [finishCycle]
  constructor <;> (rintro ⟨rfl, rfl⟩; simp [State.toneOutput])

/-- A cycle returns an error exactly when the step does, and the host finds the state before it (R57, R101). -/
theorem executeCycle_eq_err {e : Fault} : executeCycle s = .err e t ↔ step s = .fault e ∧ t = s := by
  unfold executeCycle step
  cases fetchAndExec s <;> simp [finishCycle, eq_comm]

/-- The tick's countdown in natural numbers (R56). -/
theorem toNat_countdown (v : Byte) : (countdown v).toNat = v.toNat - 1 := by
  unfold countdown
  split
  · simp_all
  · bv_omega

/-- The key wait in the environment's terms: a fresh free key from a provider that answers, no step otherwise (R95). -/
theorem execLdVxK_eq (x : Reg) :
    execLdVxK x s = if s.keyProvider = .answers then .next (keyAnswered x (Config.keyAnswer s.keyWaits) s)
      else .refused .keyWaitSuspended := by
  unfold execLdVxK keyWait State.draws
  split <;> simp_all

/-- The random byte in the environment's terms: a fresh free byte (R99). -/
theorem execRnd_eq (x : Reg) (nn : Byte) :
    execRnd x nn s = .next (randomDrawn x nn (Config.randomByte s.rndDraws) s) := rfl

/-- Loading writes the bytes and changes nothing else, or refuses whole (R117). -/
theorem loadProgram_eq_ok {bytes : List Byte} :
    loadProgram bytes s = .ok t ↔ bytes.length ≤ 3584 ∧ s.setMem (s.mem.writeBytes 0x200 bytes) = t := by
  unfold loadProgram
  split <;> simp_all

/-- A key update changes the latch and nothing else, or refuses whole (R59). -/
theorem setKey_eq_ok {k : Nat} {pressed : Bool} :
    setKey k pressed s = .ok t ↔ ∃ h : k < 16, s.setKeys (s.keys.set k pressed) = t := by
  unfold setKey
  split <;> simp_all

/-- The bytes `LD [I], Vx` stores (R89). -/
theorem length_regsUpTo (x : Reg) : (s.regsUpTo x).length = x.val + 1 := by
  simp [State.regsUpTo]

theorem getD_regsUpTo (x r : Reg) (d : Byte) (h : r.val ≤ x.val) : (s.regsUpTo x).getD r.val d = s.readV r := by
  have h' : r.val < (s.regsUpTo x).length := by rw [length_regsUpTo]; omega
  rw [List.getD_eq_getElem _ _ h']
  simp [State.regsUpTo, State.readV]

/-! ### The display -/

/-- A set sprite bit inverts its own pixel, when it is inside the grid, and no other (R92). -/
theorem pixelAt_flipPixel (acc : Canvas) (px py qx qy : Nat) :
    pixelAt (flipPixel acc px py).1 qx qy =
      if px = qx ∧ py = qy ∧ qx < 64 ∧ qy < 32 then !pixelAt acc.1 qx qy else pixelAt acc.1 qx qy := by
  unfold flipPixel
  split
  next h =>
    unfold pixelAt
    by_cases hq : qx < 64 ∧ qy < 32
    · simp only [hq, and_self, and_true, ↓reduceDIte]
      by_cases hx : px = qx
      · subst hx
        by_cases hy : py = qy
        · subst hy; simp
        · simp [hy]
      · simp [hx]
    · simp [hq]
  next h =>
    split
    · exact absurd (by omega) h
    · rfl

/-- A set sprite bit collides exactly when its pixel was lit (R92). -/
theorem collision_flipPixel (acc : Canvas) (px py : Nat) :
    (flipPixel acc px py).2 = (acc.2 || pixelAt acc.1 px py) := by
  unfold flipPixel pixelAt
  split <;> simp_all

end Sys2Proof.Machine
end

