-- ==== Sys2Proof/Laws/Cycle.lean ====
section
/-! SUPPORT. The core's cycle depends on its record and the draws alone (10_state.md R15, 40_cycle.md R61); and what the
ends of a run are (70_reset_and_hazards.md R119). -/

namespace Sys2Proof.Machine

variable {s t : State}

/-- An instruction's result as the core alone sees it, before the tick. -/
def coreOf : Result → Host.Outcome CoreState Fault Refusal
  | .next t => .next t.toCoreState
  | .fault e => .fault e
  | .refused r => .refused r

/-- `exec` is `execWith` at the environment's draws. -/
theorem exec_eq_execWith (i : Instr) (s : State) : exec i s = execWith s.draws i s := by
  cases i <;> rfl

/-- With the draws given, nothing else of the environment reaches the core. -/
theorem execWith_core (d : Draws) (i : Instr) (c : CoreState) (e e' : Environment) :
    coreOf (execWith d i { toCoreState := c, toEnvironment := e }) =
      coreOf (execWith d i { toCoreState := c, toEnvironment := e' }) := by
  have range : ∀ (n : Nat) (t t' : State), t.toCoreState = t'.toCoreState →
      coreOf (State.withRange { toCoreState := c, toEnvironment := e } n t) =
        coreOf (State.withRange { toCoreState := c, toEnvironment := e' } n t') := by
    intro n t t' h
    unfold State.withRange
    split <;> simp [coreOf, raise, h]
  have digit : ∀ (b : Bool) (err : Fault) (t t' : State), t.toCoreState = t'.toCoreState →
      coreOf (if b then .next t else raise err) = coreOf (if b then .next t' else raise err) := by
    intro b err t t' h
    cases b <;> simp [coreOf, raise, h]
  cases i with
  | drw | ldB | stRegs | ldRegs => exact range _ _ _ rfl
  | ret => simp only [execWith, exec, execRet]; split <;> rfl
  | call => simp only [execWith, exec, execCall]; split <;> rfl
  | ldF => exact digit _ _ _ _ rfl
  | skp => exact digit _ _ _ _ rfl
  | sknp => exact digit _ _ _ _ rfl
  | ldVxK => simp only [execWith, keyWait]; split <;> rfl
  | _ => rfl

/-- One `execute_cycle`, as the core shows it, is the core's cycle on its record with the environment's draws: the model's
own fields reach the core through the draws and through nothing else (R15, R61). -/
theorem executeCycle_core (s : State) : (executeCycle s).core = coreCycle s.draws s.toCoreState := by
  have hx := fun i => execWith_core s.draws i s.toCoreState s.toEnvironment State.reset.toEnvironment
  have hf : State.fetch { toCoreState := s.toCoreState, toEnvironment := State.reset.toEnvironment } = s.fetch := rfl
  unfold executeCycle coreCycle fetchAndExec
  simp only [hf]
  cases s.fetch with
  | error e => rfl
  | ok i =>
    have h := hx i
    simp only [exec_eq_execWith]
    cases h1 : execWith s.draws i s <;>
      cases h2 : execWith s.draws i { toCoreState := s.toCoreState, toEnvironment := State.reset.toEnvironment } <;>
      rw [h1, h2] at h <;> simp only [coreOf, reduceCtorEq, Host.Outcome.next.injEq, Host.Outcome.fault.injEq] at h
    case next.next t u =>
      obtain ⟨c, _⟩ := t
      obtain ⟨c', _⟩ := u
      cases h
      rfl
    case fault.fault => rw [h]; rfl
    case refused.refused => rfl

/-! ### Runs -/

/-- An error ends a run: no cycle completes after it (60_exceptions.md R102). -/
theorem atFirstError_ends {s t : State} (h : EndsIn .atFirstError s t) (n : Nat) (u : State) :
    ¬ SafeRun (n + 1) t u := by
  obtain ⟨_, err, _, hf⟩ := h
  intro hr
  cases hr with
  | cycle _ _ _ _ hs _ => rw [hf] at hs; cases hs

/-- The core does not stop at an idle address: the loop goes on and only the timers count (R119). -/
theorem idle_cycle {a : Addr} (h : s.idlesAt a) : step s = .next s.tick ∧ s.tick.pc = a := by
  obtain ⟨hpc, nnn, ha, hf⟩ := h
  have : s.setPc a = s := by rw [← hpc]; rfl
  refine ⟨step_eq_next.mpr ⟨.jp nnn, s, hf, ?_, rfl⟩, hpc⟩
  show Host.Outcome.next (s.setPc (zext16 nnn)) = _
  rw [ha, this]

/-- A run suspended in a key wait has not ended: no further cycle completes, and no error is raised (R119). -/
theorem suspended_goes_nowhere {r : Refusal} (h : step s = .refused r) :
    (∀ n u, ¬ SafeRun (n + 1) s u) ∧ ∀ err, step s ≠ .fault err := by
  constructor
  · intro n u hr
    cases hr with
    | cycle _ _ _ _ hs _ => rw [h] at hs; cases hs
  · intro err hf
    rw [h] at hf
    cases hf

end Sys2Proof.Machine
end

