-- ==== Sys2Proof/Laws/Decode.lean ====
section
/-! SUPPORT. The words of the formats of 30_encoding.md R45 as numbers, the fields of each format, and a word rebuilt
from its fields. -/

namespace Sys2Proof

theorem toNat_append_eq {w v : Nat} (a : BitVec w) (b : BitVec v) : (a ++ b).toNat = a.toNat * 2 ^ v + b.toNat := by
  rw [BitVec.toNat_append, ← Nat.shiftLeft_add_eq_or_of_lt b.isLt, Nat.shiftLeft_eq]

@[simp] theorem toNat_regBits (x : Reg) : (regBits x).toNat = x.val := rfl

theorem toNat_formatFA (g : BitVec 4) (a : Addr12) : (formatFA g a).toNat = g.toNat * 4096 + a.toNat :=
  toNat_append_eq g a

theorem toNat_formatFXK (g : BitVec 4) (x : Reg) (k : Byte) :
    (formatFXK g x k).toNat = g.toNat * 4096 + x.val * 256 + k.toNat := by
  refine (toNat_append_eq (g ++ regBits x) k).trans ?_
  rw [toNat_append_eq, toNat_regBits]; omega

theorem toNat_formatFXY (g : BitVec 4) (x y : Reg) (f : BitVec 4) :
    (formatFXY g x y f).toNat = g.toNat * 4096 + x.val * 256 + y.val * 16 + f.toNat := by
  refine (toNat_append_eq (g ++ regBits x ++ regBits y) f).trans ?_
  rw [toNat_append_eq, toNat_append_eq, toNat_regBits, toNat_regBits]; omega

theorem toNat_joinBytes (hi lo : Byte) : (joinBytes hi lo).toNat = hi.toNat * 256 + lo.toNat := toNat_append_eq hi lo

/-! ### Fields as numbers (R44) -/

theorem toNat_extract (op : Word) (lo n : Nat) : (op.extractLsb' lo n).toNat = op.toNat / 2 ^ lo % 2 ^ n := by
  rw [BitVec.extractLsb'_toNat, Nat.shiftRight_eq_div_pow]

theorem toNat_fieldG (op : Word) : (fieldG op).toNat = op.toNat / 4096 := by
  have := op.isLt
  rw [fieldG, toNat_extract]; omega

theorem val_fieldX (op : Word) : (fieldX op).val = op.toNat / 256 % 16 := toNat_extract op 8 4

theorem val_fieldY (op : Word) : (fieldY op).val = op.toNat / 16 % 16 := toNat_extract op 4 4

theorem toNat_fieldN (op : Word) : (fieldN op).toNat = op.toNat % 16 := by rw [fieldN, toNat_extract]; omega

theorem toNat_fieldNN (op : Word) : (fieldNN op).toNat = op.toNat % 256 := by rw [fieldNN, toNat_extract]; omega

theorem toNat_fieldNNN (op : Word) : (fieldNNN op).toNat = op.toNat % 4096 := by rw [fieldNNN, toNat_extract]; omega

theorem toNat_highByte (op : Word) : (highByte op).toNat = op.toNat / 256 := by
  have := op.isLt
  rw [highByte, toNat_extract]; omega

theorem toNat_lowByte (op : Word) : (lowByte op).toNat = op.toNat % 256 := by rw [lowByte, toNat_extract]; omega

/-! ### Fields of a word in a format (R45) -/

section
variable (g f : BitVec 4) (a : Addr12) (x y : Reg) (k : Byte)

@[simp] theorem fieldG_formatFA : fieldG (formatFA g a) = g := by
  apply BitVec.eq_of_toNat_eq; rw [toNat_fieldG, toNat_formatFA]; omega

@[simp] theorem fieldNNN_formatFA : fieldNNN (formatFA g a) = a := by
  apply BitVec.eq_of_toNat_eq; rw [toNat_fieldNNN, toNat_formatFA]; omega

@[simp] theorem fieldG_formatFXK : fieldG (formatFXK g x k) = g := by
  apply BitVec.eq_of_toNat_eq; rw [toNat_fieldG, toNat_formatFXK]; omega

@[simp] theorem fieldX_formatFXK : fieldX (formatFXK g x k) = x := by
  apply Fin.ext; rw [val_fieldX, toNat_formatFXK]; omega

@[simp] theorem fieldNN_formatFXK : fieldNN (formatFXK g x k) = k := by
  apply BitVec.eq_of_toNat_eq; rw [toNat_fieldNN, toNat_formatFXK]; omega

@[simp] theorem fieldG_formatFXY : fieldG (formatFXY g x y f) = g := by
  apply BitVec.eq_of_toNat_eq; rw [toNat_fieldG, toNat_formatFXY]; omega

@[simp] theorem fieldX_formatFXY : fieldX (formatFXY g x y f) = x := by
  apply Fin.ext; rw [val_fieldX, toNat_formatFXY]; omega

@[simp] theorem fieldY_formatFXY : fieldY (formatFXY g x y f) = y := by
  apply Fin.ext; rw [val_fieldY, toNat_formatFXY]; omega

@[simp] theorem fieldN_formatFXY : fieldN (formatFXY g x y f) = f := by
  apply BitVec.eq_of_toNat_eq; rw [toNat_fieldN, toNat_formatFXY]; omega
end

/-! ### A word rebuilt from its fields -/

theorem formatFA_fields (op : Word) : formatFA (fieldG op) (fieldNNN op) = op := by
  apply BitVec.eq_of_toNat_eq; rw [toNat_formatFA, toNat_fieldG, toNat_fieldNNN]; omega

theorem formatFXK_fields (op : Word) : formatFXK (fieldG op) (fieldX op) (fieldNN op) = op := by
  apply BitVec.eq_of_toNat_eq; rw [toNat_formatFXK, toNat_fieldG, val_fieldX, toNat_fieldNN]; omega

theorem formatFXY_fields (op : Word) : formatFXY (fieldG op) (fieldX op) (fieldY op) (fieldN op) = op := by
  apply BitVec.eq_of_toNat_eq; rw [toNat_formatFXY, toNat_fieldG, val_fieldX, val_fieldY, toNat_fieldN]; omega

@[simp] theorem joinBytes_high_low (op : Word) : joinBytes (highByte op) (lowByte op) = op := by
  apply BitVec.eq_of_toNat_eq; rw [toNat_joinBytes, toNat_highByte, toNat_lowByte]; omega

@[simp] theorem highByte_joinBytes (hi lo : Byte) : highByte (joinBytes hi lo) = hi := by
  apply BitVec.eq_of_toNat_eq; rw [toNat_highByte, toNat_joinBytes]; omega

@[simp] theorem lowByte_joinBytes (hi lo : Byte) : lowByte (joinBytes hi lo) = lo := by
  apply BitVec.eq_of_toNat_eq; rw [toNat_lowByte, toNat_joinBytes]; omega

end Sys2Proof
end

