-- ==== Sys2Proof/Laws/Display.lean ====
section
/-! SUPPORT. The sprite loops of DRW pixel by pixel (44_display.md R92): what one row and what a whole sprite do to each
pixel and to the collision. -/

namespace Sys2Proof.Machine

theorem pixelAt_eq (d : Display) (c : Fin 64) (r : Fin 32) : pixelAt d c.val r.val = d[c][r] := by
  simp [pixelAt]

/-- The last `k` columns of one sprite row invert exactly the pixels of that row whose bits are set. -/
theorem pixelAt_drawBits (b : Byte) (cx py qx qy k : Nat) (hk : k ≤ 8) (acc : Canvas) :
    pixelAt (drawBits b cx py k acc).1 qx qy =
      (pixelAt acc.1 qx qy ^^
        (decide (py = qy ∧ cx + (8 - k) ≤ qx ∧ qx < cx + 8 ∧ qx < 64 ∧ qy < 32) && b.getLsbD (7 - (qx - cx)))) := by
  induction k generalizing acc with
  | zero =>
    rw [decide_eq_false (by omega)]
    simp [drawBits]
  | succ k ih =>
    rw [drawBits, ih (by omega)]
    by_cases hb : b.getLsbD k
    · rw [if_pos hb, pixelAt_flipPixel]
      by_cases hq : cx + (7 - k) = qx ∧ py = qy ∧ qx < 64 ∧ qy < 32
      · have e : 7 - (qx - cx) = k := by omega
        rw [if_pos hq, e, hb, decide_eq_false (by omega), decide_eq_true (by omega)]
        simp
      · rw [if_neg hq]
        congr 2
        rw [decide_eq_decide]
        omega
    · rw [if_neg hb]
      by_cases e : 7 - (qx - cx) = k ∧ cx ≤ qx ∧ qx < cx + 8
      · rw [e.1]
        simp [hb]
      · congr 2
        rw [decide_eq_decide]
        omega

/-- One sprite row collides exactly when a set bit of it meets a lit pixel. -/
theorem collision_drawBits (b : Byte) (cx py k : Nat) (hk : k ≤ 8) (acc : Canvas) :
    (drawBits b cx py k acc).2 = true ↔
      acc.2 = true ∨ ∃ j, j < k ∧ b.getLsbD j = true ∧ pixelAt acc.1 (cx + (7 - j)) py = true := by
  induction k generalizing acc with
  | zero => simp [drawBits]
  | succ k ih =>
    rw [drawBits, ih (by omega)]
    by_cases hb : b.getLsbD k
    · rw [if_pos hb, collision_flipPixel]
      simp only [pixelAt_flipPixel, Bool.or_eq_true]
      constructor
      · rintro ((h | h) | ⟨j, h1, h2, h3⟩)
        · exact .inl h
        · exact .inr ⟨k, by omega, hb, h⟩
        · rw [if_neg (by omega)] at h3
          exact .inr ⟨j, by omega, h2, h3⟩
      · rintro (h | ⟨j, h1, h2, h3⟩)
        · exact .inl (.inl h)
        · by_cases hjk : j = k
          · subst hjk
            exact .inl (.inr h3)
          · refine .inr ⟨j, by omega, h2, ?_⟩
            rw [if_neg (by omega)]
            exact h3
    · rw [if_neg hb]
      constructor
      · rintro (h | ⟨j, h1, h2, h3⟩)
        · exact .inl h
        · exact .inr ⟨j, by omega, h2, h3⟩
      · rintro (h | ⟨j, h1, h2, h3⟩)
        · exact .inl h
        · by_cases hjk : j = k
          · subst hjk
            exact absurd h2 hb
          · exact .inr ⟨j, by omega, h2, h3⟩

/-- A sprite inverts exactly the pixels inside the grid whose bits are set. -/
theorem pixelAt_drawRows (cx py qx qy : Nat) (rows : List Byte) (acc : Canvas) :
    pixelAt (drawRows cx py rows acc).1 qx qy =
      (pixelAt acc.1 qx qy ^^
        (decide (py ≤ qy ∧ qy < py + rows.length ∧ cx ≤ qx ∧ qx < cx + 8 ∧ qx < 64 ∧ qy < 32) &&
          (rows.getD (qy - py) 0).getLsbD (7 - (qx - cx)))) := by
  induction rows generalizing py acc with
  | nil =>
    rw [decide_eq_false (by simp; omega)]
    simp [drawRows]
  | cons b rows ih =>
    rw [drawRows, ih, pixelAt_drawBits _ _ _ _ _ _ (le_refl _)]
    rcases Nat.lt_trichotomy py qy with h | rfl | h
    · have e : qy - py = (qy - (py + 1)) + 1 := by omega
      simp [show py ≠ qy by omega, e, show py + 1 ≤ qy by omega, show py ≤ qy by omega,
        show qy < py + 1 + rows.length ↔ qy < py + (rows.length + 1) by omega]
    · simp
    · simp [show py ≠ qy by omega, show ¬ py + 1 ≤ qy by omega, show ¬ py ≤ qy by omega]

/-- A sprite collides exactly when a set bit of it meets a lit pixel. -/
theorem collision_drawRows (cx py : Nat) (rows : List Byte) (acc : Canvas) :
    (drawRows cx py rows acc).2 = true ↔
      acc.2 = true ∨ ∃ k j, k < rows.length ∧ j < 8 ∧ (rows.getD k 0).getLsbD j = true ∧
        pixelAt acc.1 (cx + (7 - j)) (py + k) = true := by
  induction rows generalizing py acc with
  | nil => simp [drawRows]
  | cons b rows ih =>
    rw [drawRows, ih, collision_drawBits _ _ _ _ (le_refl _)]
    simp only [pixelAt_drawBits b _ _ _ _ 8 (le_refl _)]
    constructor
    · rintro ((h | ⟨j, h1, h2, h3⟩) | ⟨k, j, h1, h2, h3, h4⟩)
      · exact .inl h
      · exact .inr ⟨0, j, by simp, h1, by simpa using h2, by simpa using h3⟩
      · refine .inr ⟨k + 1, j, by simpa using h1, h2, by simpa using h3, ?_⟩
        simp only [show py ≠ py + 1 + k by omega, false_and, decide_false, Bool.false_and, Bool.xor_false] at h4
        rw [show py + (k + 1) = py + 1 + k by omega]
        exact h4
    · rintro (h | ⟨k, j, h1, h2, h3, h4⟩)
      · exact .inl (.inl h)
      · cases k with
        | zero => exact .inl (.inr ⟨j, h2, by simpa using h3, by simpa using h4⟩)
        | succ k =>
          refine .inr ⟨k, j, by simpa using h1, h2, by simpa using h3, ?_⟩
          simp only [show py ≠ py + 1 + k by omega, false_and, decide_false, Bool.false_and, Bool.xor_false]
          rw [show py + (k + 1) = py + 1 + k by omega] at h4
          exact h4

/-- The k-th row of a sprite is the byte at the k-th address (R92, 20_memory.md R36). -/
theorem getD_readBytes (m : Memory) (a n k : Nat) (h : k < n) : (m.readBytes a n).getD k 0 = m.read (a + k) := by
  have h' : k < (m.readBytes a n).length := by rw [Memory.length_readBytes]; exact h
  rw [List.getD_eq_getElem _ _ h', Memory.getElem_readBytes]

end Sys2Proof.Machine
end

