-- ==== Sys2Proof/Laws/PerInstr.lean ====
section
/-! SUPPORT. Statements made per instruction: TableRow, that an instruction's encoded word is a word of its own row of
the table of 30_encoding.md R47. -/

namespace Sys2Proof.Laws.TableRow

/-- The encoded word of the instruction matches the instruction's own row of R47. -/
def Statement (i : Instr) : Prop := i.tableRow.accepts (encode i) = true

/-- Masking a concatenation masks its parts. -/
theorem append_and_append {w v : Nat} (a c : BitVec w) (b d : BitVec v) : (a ++ b) &&& (c ++ d) = (a &&& c) ++ (b &&& d) := by
  ext i hi
  simp only [BitVec.getElem_and, BitVec.getElem_append]
  split <;> rfl

theorem allOnes4 : (0xF#4 : BitVec 4) = BitVec.allOnes 4 := rfl

theorem allOnes8 : (0xFF#8 : BitVec 8) = BitVec.allOnes 8 := rfl

theorem formatFA_masked (g : BitVec 4) (a : Addr12) : formatFA g a &&& 0xF000 = formatFA g 0 := by
  refine (append_and_append g 0xF#4 a 0x000#12).trans ?_
  simp only [allOnes4, BitVec.and_allOnes, BitVec.and_zero]
  rfl

theorem formatFXK_masked_group (g : BitVec 4) (x : Reg) (k : Byte) : formatFXK g x k &&& 0xF000 = formatFXK g 0 0 := by
  refine (append_and_append (g ++ regBits x) (0xF#4 ++ 0x0#4) k 0x00#8).trans ?_
  simp only [append_and_append, allOnes4, BitVec.and_allOnes, BitVec.and_zero]
  rfl

theorem formatFXK_masked (g : BitVec 4) (x : Reg) (k : Byte) : formatFXK g x k &&& 0xF0FF = formatFXK g 0 k := by
  refine (append_and_append (g ++ regBits x) (0xF#4 ++ 0x0#4) k 0xFF#8).trans ?_
  simp only [append_and_append, allOnes4, BitVec.and_allOnes, BitVec.and_zero, allOnes8]
  rfl

theorem formatFXY_masked (g : BitVec 4) (x y : Reg) (f : BitVec 4) :
    formatFXY g x y f &&& 0xF00F = formatFXY g 0 0 f := by
  refine (append_and_append (g ++ regBits x ++ regBits y) (0xF#4 ++ 0x0#4 ++ 0x0#4) f 0xF#4).trans ?_
  simp only [append_and_append, allOnes4, BitVec.and_allOnes, BitVec.and_zero]
  rfl

theorem formatFXY_masked_group (g : BitVec 4) (x y : Reg) (f : BitVec 4) :
    formatFXY g x y f &&& 0xF000 = formatFXY g 0 0 0 := by
  refine (append_and_append (g ++ regBits x ++ regBits y) (0xF#4 ++ 0x0#4 ++ 0x0#4) f 0x0#4).trans ?_
  simp only [append_and_append, allOnes4, BitVec.and_allOnes, BitVec.and_zero]
  rfl

theorem cls : Statement .cls := rfl
theorem ret : Statement .ret := rfl
theorem jp (nnn : Addr12) : Statement (.jp nnn) := beq_iff_eq.mpr (formatFA_masked _ _)
theorem call (nnn : Addr12) : Statement (.call nnn) := beq_iff_eq.mpr (formatFA_masked _ _)
theorem seImm (x : Reg) (nn : Byte) : Statement (.seImm x nn) := beq_iff_eq.mpr (formatFXK_masked_group _ _ _)
theorem sneImm (x : Reg) (nn : Byte) : Statement (.sneImm x nn) := beq_iff_eq.mpr (formatFXK_masked_group _ _ _)
theorem seReg (x y : Reg) : Statement (.seReg x y) := beq_iff_eq.mpr (formatFXY_masked _ _ _ _)
theorem ldImm (x : Reg) (nn : Byte) : Statement (.ldImm x nn) := beq_iff_eq.mpr (formatFXK_masked_group _ _ _)
theorem addImm (x : Reg) (nn : Byte) : Statement (.addImm x nn) := beq_iff_eq.mpr (formatFXK_masked_group _ _ _)
theorem ldReg (x y : Reg) : Statement (.ldReg x y) := beq_iff_eq.mpr (formatFXY_masked _ _ _ _)
theorem orReg (x y : Reg) : Statement (.orReg x y) := beq_iff_eq.mpr (formatFXY_masked _ _ _ _)
theorem andReg (x y : Reg) : Statement (.andReg x y) := beq_iff_eq.mpr (formatFXY_masked _ _ _ _)
theorem xorReg (x y : Reg) : Statement (.xorReg x y) := beq_iff_eq.mpr (formatFXY_masked _ _ _ _)
theorem addReg (x y : Reg) : Statement (.addReg x y) := beq_iff_eq.mpr (formatFXY_masked _ _ _ _)
theorem subReg (x y : Reg) : Statement (.subReg x y) := beq_iff_eq.mpr (formatFXY_masked _ _ _ _)
theorem shr (x y : Reg) : Statement (.shr x y) := beq_iff_eq.mpr (formatFXY_masked _ _ _ _)
theorem subnReg (x y : Reg) : Statement (.subnReg x y) := beq_iff_eq.mpr (formatFXY_masked _ _ _ _)
theorem shl (x y : Reg) : Statement (.shl x y) := beq_iff_eq.mpr (formatFXY_masked _ _ _ _)
theorem sneReg (x y : Reg) : Statement (.sneReg x y) := beq_iff_eq.mpr (formatFXY_masked _ _ _ _)
theorem ldI (nnn : Addr12) : Statement (.ldI nnn) := beq_iff_eq.mpr (formatFA_masked _ _)
theorem jpV0 (nnn : Addr12) : Statement (.jpV0 nnn) := beq_iff_eq.mpr (formatFA_masked _ _)
theorem rnd (x : Reg) (nn : Byte) : Statement (.rnd x nn) := beq_iff_eq.mpr (formatFXK_masked_group _ _ _)
theorem drw (x y : Reg) (n : Nat) : Statement (.drw x y n) := beq_iff_eq.mpr (formatFXY_masked_group _ _ _ _)
theorem skp (x : Reg) : Statement (.skp x) := beq_iff_eq.mpr (formatFXK_masked _ _ _)
theorem sknp (x : Reg) : Statement (.sknp x) := beq_iff_eq.mpr (formatFXK_masked _ _ _)
theorem ldVxDT (x : Reg) : Statement (.ldVxDT x) := beq_iff_eq.mpr (formatFXK_masked _ _ _)
theorem ldVxK (x : Reg) : Statement (.ldVxK x) := beq_iff_eq.mpr (formatFXK_masked _ _ _)
theorem ldDT (x : Reg) : Statement (.ldDT x) := beq_iff_eq.mpr (formatFXK_masked _ _ _)
theorem ldST (x : Reg) : Statement (.ldST x) := beq_iff_eq.mpr (formatFXK_masked _ _ _)
theorem addI (x : Reg) : Statement (.addI x) := beq_iff_eq.mpr (formatFXK_masked _ _ _)
theorem ldF (x : Reg) : Statement (.ldF x) := beq_iff_eq.mpr (formatFXK_masked _ _ _)
theorem ldB (x : Reg) : Statement (.ldB x) := beq_iff_eq.mpr (formatFXK_masked _ _ _)
theorem stRegs (x : Reg) : Statement (.stRegs x) := beq_iff_eq.mpr (formatFXK_masked _ _ _)
theorem ldRegs (x : Reg) : Statement (.ldRegs x) := beq_iff_eq.mpr (formatFXK_masked _ _ _)

end Sys2Proof.Laws.TableRow
end

