-- ==== Sys2Proof/Tests/Slice0.lean ====
section
/-! SUPPORT. Tests of the model against the vectors of 95_test_vectors.md (named W, D-DEC, D-CYC, D-CTL, D-ALU, D-MEM,
D-DSP, D-KTR, D-HOST, D-ERR there), the smoke test of WellFormed, and one witness for every statement that has
hypotheses. -/

namespace Sys2Proof.Tests

open Sys2Proof.Machine

/-! ### WellFormed -/

/-- A sprite height above 15 is refused; the highest one a word can hold is not (R46). -/
theorem test_wellFormed_height : (Instr.drw 0 1 16).wellFormed = false ∧ (Instr.drw 0 1 15).wellFormed = true := by
  decide

/-! ### Decoding: a word written out from R45 and R47 for every instruction -/

theorem test_decode_control :
    decode 0b0000000011101110 = .instr .ret ∧ decode 0b0001001010100000 = .instr (.jp 0x2A0) ∧
    decode 0b0010001100000000 = .instr (.call 0x300) ∧ decode 0b0011001101000010 = .instr (.seImm 3 0x42) ∧
    decode 0b0100001101000010 = .instr (.sneImm 3 0x42) ∧ decode 0b0101000100100000 = .instr (.seReg 1 2) ∧
    decode 0b1001000100100000 = .instr (.sneReg 1 2) ∧ decode 0b1011001100000000 = .instr (.jpV0 0x300) := by decide

theorem test_decode_alu :
    decode 0b0110000000000101 = .instr (.ldImm 0 5) ∧ decode 0b0111001000100000 = .instr (.addImm 2 0x20) ∧
    decode 0b1000000101010000 = .instr (.ldReg 1 5) ∧ decode 0b1000000000010001 = .instr (.orReg 0 1) ∧
    decode 0b1000000000010010 = .instr (.andReg 0 1) ∧ decode 0b1000000000010011 = .instr (.xorReg 0 1) ∧
    decode 0b1000000000010100 = .instr (.addReg 0 1) ∧ decode 0b1000000000010101 = .instr (.subReg 0 1) ∧
    decode 0b1000101010110110 = .instr (.shr 10 11) ∧ decode 0b1000000000010111 = .instr (.subnReg 0 1) ∧
    decode 0b1000101000001110 = .instr (.shl 10 0) := by decide

theorem test_decode_index_memory :
    decode 0b1010001100000000 = .instr (.ldI 0x300) ∧ decode 0b1111001000011110 = .instr (.addI 2) ∧
    decode 0b1111000100101001 = .instr (.ldF 1) ∧ decode 0b1111010100110011 = .instr (.ldB 5) ∧
    decode 0b1111001001010101 = .instr (.stRegs 2) ∧ decode 0b1111001001100101 = .instr (.ldRegs 2) := by decide

theorem test_decode_display :
    decode 0b0000000011100000 = .instr .cls ∧ decode 0b1101000000010101 = .instr (.drw 0 1 5) ∧
    decode 0b1101000100100000 = .instr (.drw 1 2 0) := by decide

theorem test_decode_keypad_timers_random :
    decode 0b1110000110011110 = .instr (.skp 1) ∧ decode 0b1110000110100001 = .instr (.sknp 1) ∧
    decode 0b1111000000000111 = .instr (.ldVxDT 0) ∧ decode 0b1111001100001010 = .instr (.ldVxK 3) ∧
    decode 0b1111000000010101 = .instr (.ldDT 0) ∧ decode 0b1111000000011000 = .instr (.ldST 0) ∧
    decode 0b1100001000001111 = .instr (.rnd 2 0x0F) := by decide

/-- The rejected words of D-DEC. -/
theorem test_decode_rejects :
    decode 0x0000 = .invalidOpcode 0x0000 ∧ decode 0x0123 = .invalidOpcode 0x0123 ∧
    decode 0x00E1 = .invalidOpcode 0x00E1 ∧ decode 0x5123 = .invalidOpcode 0x5123 ∧
    decode 0x8AB8 = .invalidOpcode 0x8AB8 ∧ decode 0x8ABF = .invalidOpcode 0x8ABF ∧
    decode 0x9121 = .invalidOpcode 0x9121 ∧ decode 0xE19F = .invalidOpcode 0xE19F ∧
    decode 0xF1FF = .invalidOpcode 0xF1FF ∧ decode 0xFFFF = .invalidOpcode 0xFFFF := by decide

/-- The table has 34 rows (R47) and no word matches two of them: each pair differs in a bit both masks test. -/
theorem test_table_rows_disjoint :
    opcodeTable.length = 34 ∧
    opcodeTable.Pairwise fun p q => p.pattern &&& (p.mask &&& q.mask) ≠ q.pattern &&& (p.mask &&& q.mask) := by
  decide

/-- The high byte comes first in memory (R34), and the host's word is numbered from its least significant bit. -/
theorem test_decode_bytes :
    decodeBytes [0x60, 0x05, 0x61] = some (.instr (.ldImm 0 5), [0x61]) ∧ decodeBytes [0x60] = none ∧
    decodeTableWord 16 0x6005 = some (.ldImm 0 5) ∧ decodeTableWord 16 0x5123 = none := by decide

/-! ### One cycle of each instruction -/

/-- The state after `new()` with these registers. -/
def withV (regs : List (Reg × Byte)) : State := regs.foldl (fun s p => s.writeV p.1 p.2) State.reset

/-- `s` with these bytes from `a` on. -/
def withBytes (a : Nat) (bytes : List Byte) (s : State) : State := s.setMem (s.mem.writeBytes a bytes)

/-- The state one cycle after `s` with the word `w` at its `pc`, if the cycle completes. -/
def cycle (w : Nat) (s : State) : Option State := nextOf (step (s.withFetchWord 16 w))

/-- The error of that cycle, if it raises one. -/
def cycleError (w : Nat) (s : State) : Option Fault := faultOf (step (s.withFetchWord 16 w))

/-- A register, VF and `pc` after that cycle. -/
def regCycle (w : Nat) (s : State) (r : Reg) : Option (Byte × Byte × Addr) :=
  (cycle w s).map fun t => (t.V[r], t.V[VF], t.pc)

/-- `pc` after that cycle. -/
def pcCycle (w : Nat) (s : State) : Option Addr := (cycle w s).map (·.pc)

/-- Some pixels and VF after that cycle. -/
def pixelsAfter (w : Nat) (s : State) (pixels : List (Nat × Nat)) : Option (List Bool × Byte) :=
  (cycle w s).map fun t => (pixels.map fun p => pixelAt t.disp p.1 p.2, t.V[VF])

/-- A display with one lit pixel. -/
def onePixel (px py : Nat) : Display := (flipPixel (clearDisplay, false) px py).1

/-- D-CTL 1 to 3. -/
theorem test_jp : pcCycle 0x12A0 State.reset = some 0x2A0 ∧ pcCycle 0x1200 State.reset = some 0x200 ∧
    pcCycle 0x1FFF State.reset = some 0xFFF := by decide

/-- D-CTL 4, 9. -/
theorem test_call :
    (cycle 0x2300 (State.reset.setPc 0x204)).map (fun t => (t.stack, t.pc)) = some ([0x204], 0x300) ∧
    (cycle 0x2400 (State.reset.setPc 0xFFE)).map (fun t => (t.stack, t.pc)) = some ([0xFFE], 0x400) := by
  decide

/-- D-CTL 7, 8. -/
theorem test_call_depth :
    (cycle 0x2300 (State.reset.setStack (List.replicate 15 0x200))).map (fun t => t.stack.length) = some 16 ∧
    cycleError 0x2300 (State.reset.setStack (List.replicate 16 0x200)) = some .stackOverflow := by decide

/-- D-CTL 5, and the last entry is the top. -/
theorem test_ret :
    (cycle 0x00EE ((State.reset.setPc 0x300).setStack [0x222, 0x204])).map (fun t => (t.stack, t.pc)) =
      some ([0x222], 0x206) ∧
    pcCycle 0x00EE (State.reset.setStack [0xFFE]) = some 0x1000 := by decide

/-- D-CTL 6. -/
theorem test_ret_empty : cycleError 0x00EE State.reset = some .stackUnderflow := by decide

/-- D-CTL 10, 11, 19, 21. -/
theorem test_seImm :
    pcCycle 0x3342 ((withV [(3, 0x42)]).setPc 0x210) = some 0x214 ∧
    pcCycle 0x3342 ((withV [(3, 0x41)]).setPc 0x210) = some 0x212 ∧
    pcCycle 0x3F01 ((withV [(15, 1)]).setPc 0x230) = some 0x234 ∧
    pcCycle 0x3000 (State.reset.setPc 0xFFC) = some 0x1000 := by decide

/-- D-CTL 12, 13. -/
theorem test_sneImm :
    pcCycle 0x4342 ((withV [(3, 0x41)]).setPc 0x210) = some 0x214 ∧
    pcCycle 0x4342 ((withV [(3, 0x42)]).setPc 0x210) = some 0x212 := by decide

/-- D-CTL 14 to 16. -/
theorem test_seReg :
    pcCycle 0x5120 ((withV [(1, 7), (2, 7)]).setPc 0x220) = some 0x224 ∧
    pcCycle 0x5120 ((withV [(1, 7), (2, 8)]).setPc 0x220) = some 0x222 ∧
    pcCycle 0x5110 (withV [(1, 9)]) = some 0x204 := by decide

/-- D-CTL 17, 18. -/
theorem test_sneReg :
    pcCycle 0x9120 ((withV [(1, 7), (2, 8)]).setPc 0x220) = some 0x224 ∧
    pcCycle 0x9110 (withV [(1, 9)]) = some 0x202 := by decide

/-- D-CTL 22 to 24: V0 is the index whatever bits 11:8 hold, and the sum is not reduced. -/
theorem test_jpV0 :
    pcCycle 0xB300 (withV [(0, 0x10)]) = some 0x310 ∧ pcCycle 0xBFFF (withV [(0, 0xFF)]) = some 0x10FE ∧
    pcCycle 0xB500 (withV [(0, 0x01), (5, 0x40)]) = some 0x501 := by decide

/-- D-ALU 1, 2. -/
theorem test_ldImm :
    regCycle 0x6005 State.reset 0 = some (0x05, 0, 0x202) ∧ regCycle 0x6FAA State.reset 15 = some (0xAA, 0xAA, 0x202) := by
  decide

/-- D-ALU 3 to 5. -/
theorem test_addImm :
    regCycle 0x7220 (withV [(2, 0xF0)]) 2 = some (0x10, 0, 0x202) ∧
    regCycle 0x7001 (withV [(0, 0xFF), (15, 0x55)]) 0 = some (0x00, 0x55, 0x202) ∧
    regCycle 0x7F01 (withV [(15, 0xFE)]) 15 = some (0xFF, 0xFF, 0x202) := by decide

/-- D-ALU 6. -/
theorem test_ldReg : regCycle 0x8150 (withV [(5, 0x3C)]) 1 = some (0x3C, 0, 0x202) := by decide

/-- D-ALU 7. -/
theorem test_orReg : regCycle 0x8011 (withV [(0, 0xF0), (1, 0x0F), (15, 0x77)]) 0 = some (0xFF, 0x77, 0x202) := by
  decide

/-- D-ALU 8. -/
theorem test_andReg : regCycle 0x8012 (withV [(0, 0xF3), (1, 0x3F)]) 0 = some (0x33, 0, 0x202) := by decide

/-- D-ALU 9, 10. -/
theorem test_xorReg :
    regCycle 0x8013 (withV [(0, 0xFF), (1, 0x0F)]) 0 = some (0xF0, 0, 0x202) ∧
    regCycle 0x8003 (withV [(0, 0x5A)]) 0 = some (0x00, 0, 0x202) := by decide

/-- D-ALU 12 to 15. -/
theorem test_addReg :
    regCycle 0x8014 (withV [(0, 0x7F), (1, 0x80)]) 0 = some (0xFF, 0, 0x202) ∧
    regCycle 0x8014 (withV [(0, 0x80), (1, 0x80)]) 0 = some (0x00, 1, 0x202) ∧
    regCycle 0x8014 (withV [(0, 0xFF), (1, 0xFF)]) 0 = some (0xFE, 1, 0x202) ∧
    regCycle 0x8004 (withV [(0, 0x81)]) 0 = some (0x02, 1, 0x202) := by decide

/-- D-ALU 16, 17: VF as destination ends as the carry, VF as source is read before it is written. -/
theorem test_addReg_VF :
    regCycle 0x8F14 (withV [(15, 0xF0), (1, 0x05)]) 15 = some (0, 0, 0x202) ∧
    regCycle 0x80F4 (withV [(0, 0x10), (15, 0xF5)]) 0 = some (0x05, 1, 0x202) := by decide

/-- D-ALU 18 to 20, 22. -/
theorem test_subReg :
    regCycle 0x8015 State.reset 0 = some (0x00, 1, 0x202) ∧
    regCycle 0x8015 (withV [(1, 1)]) 0 = some (0xFF, 0, 0x202) ∧
    regCycle 0x8015 (withV [(0, 0x80), (1, 0x7F)]) 0 = some (0x01, 1, 0x202) ∧
    regCycle 0x8F15 (withV [(15, 5), (1, 3)]) 15 = some (1, 1, 0x202) := by decide

/-- D-ALU 27, 29 to 31: the `y` field plays no part. -/
theorem test_shr :
    regCycle 0x8406 (withV [(4, 0x05)]) 4 = some (0x02, 1, 0x202) ∧
    regCycle 0x8006 (withV [(0, 0x80)]) 0 = some (0x40, 0, 0x202) ∧
    regCycle 0x8016 (withV [(0, 0x01), (1, 0xFF)]) 0 = some (0x00, 1, 0x202) ∧
    regCycle 0x8F06 (withV [(15, 0x02)]) 15 = some (0, 0, 0x202) := by decide

/-- D-ALU 23 to 26. -/
theorem test_subnReg :
    regCycle 0x8017 (withV [(0, 5), (1, 3)]) 0 = some (0xFE, 0, 0x202) ∧
    regCycle 0x8017 (withV [(0, 1)]) 0 = some (0xFF, 0, 0x202) ∧
    regCycle 0x8017 (withV [(0, 0x7F), (1, 0x80)]) 0 = some (0x01, 1, 0x202) ∧
    regCycle 0x8007 (withV [(0, 9)]) 0 = some (0x00, 1, 0x202) := by decide

/-- D-ALU 32, 34 to 36. -/
theorem test_shl :
    regCycle 0x840E (withV [(4, 0x81)]) 4 = some (0x02, 1, 0x202) ∧
    regCycle 0x800E (withV [(0, 0x40)]) 0 = some (0x80, 0, 0x202) ∧
    regCycle 0x800E (withV [(0, 0x7F)]) 0 = some (0xFE, 0, 0x202) ∧
    regCycle 0x8F0E (withV [(15, 0x81)]) 15 = some (1, 1, 0x202) := by decide

/-- D-MEM 1, 2. -/
theorem test_ldI :
    (cycle 0xA300 State.reset).map (·.I) = some 0x300 ∧ (cycle 0xAFFF State.reset).map (·.I) = some 0xFFF := by
  decide

/-- D-MEM 3 to 5. -/
theorem test_addI :
    (cycle 0xF21E ((withV [(2, 0x10)]).setI 0x300)).map (·.I) = some 0x310 ∧
    (cycle 0xF01E ((withV [(0, 1)]).setI 0xFFF)).map (fun t => (t.I, t.V[VF])) = some (0x1000, 0) ∧
    (cycle 0xF01E ((withV [(0, 1)]).setI 0xFFFF)).map (·.I) = some 0x0000 := by decide

/-- D-MEM 6, 8. -/
theorem test_ldF :
    (cycle 0xF329 (withV [(3, 0x0A)])).map (·.I) = some 0x032 ∧
    (cycle 0xF029 (withV [(0, 0x0F)])).map (·.I) = some 0x04B := by decide

/-- D-MEM 9. -/
theorem test_ldF_range : cycleError 0xF029 (withV [(0, 0x10)]) = some (.glyphOutOfRange 0x10) := by decide

/-- D-MEM 10 to 12. -/
theorem test_ldB :
    (cycle 0xF533 ((withV [(5, 137)]).setI 0x400)).map (fun t => (t.mem.readBytes 0x400 3, t.I)) =
      some ([1, 3, 7], 0x400) ∧
    (cycle 0xF033 ((withV [(0, 99)]).setI 0x400)).map (fun t => t.mem.readBytes 0x400 3) = some [0, 9, 9] ∧
    (cycle 0xF033 ((withV [(0, 255)]).setI 0xFFD)).map (fun t => t.mem.readBytes 0xFFD 3) = some [2, 5, 5] := by
  decide

/-- D-MEM 13. -/
theorem test_ldB_range : cycleError 0xF033 (State.reset.setI 0xFFE) = some (.memoryOutOfRange 0xFFE 3) := by
  decide

/-- V0 to VF = 00, 01, …, 0F. -/
def counting : State := { State.reset with V := Vector.ofFn fun r : Reg => BitVec.ofNat 8 r.val }

/-- D-MEM 14 to 16, 21. -/
theorem test_stRegs :
    (cycle 0xF255 ((withV [(0, 0x11), (1, 0x22), (2, 0x33), (3, 0x44)]).setI 0x500)).map
      (fun t => (t.mem.readBytes 0x500 4, t.I)) = some ([0x11, 0x22, 0x33, 0], 0x500) ∧
    (cycle 0xF055 ((withV [(0, 0x99), (1, 0x77)]).setI 0x500)).map (fun t => t.mem.readBytes 0x500 2) =
      some [0x99, 0] ∧
    (cycle 0xFF55 (counting.setI 0xFF0)).map (fun t => t.mem.readBytes 0xFF0 16) =
      some [0, 1, 2, 3, 4, 5, 6, 7, 8, 9, 10, 11, 12, 13, 14, 15] ∧
    (cycle 0xF055 (withV [(0, 0xAB)])).map (fun t => t.mem.readBytes 0 2) = some [0xAB, 0x90] := by decide

/-- D-MEM 17. -/
theorem test_stRegs_range : cycleError 0xFF55 (State.reset.setI 0xFF1) = some (.memoryOutOfRange 0xFF1 16) := by
  decide

/-- D-MEM 18, 19. -/
theorem test_ldRegs :
    (cycle 0xF265 (((withV [(3, 0x44)]).setI 0x500) |> withBytes 0x500 [0x11, 0x22, 0x33, 0x99])).map
      (fun t => (t.V.toList.take 4, t.I)) = some ([0x11, 0x22, 0x33, 0x44], 0x500) ∧
    (cycle 0xFF65 ((State.reset.setI 0x600) |> withBytes 0x60F [0x1F])).map (fun t => t.V[VF]) = some 0x1F := by
  decide

/-- D-MEM 20. -/
theorem test_ldRegs_range : cycleError 0xF065 (State.reset.setI 0x1000) = some (.memoryOutOfRange 0x1000 1) := by
  decide

/-- D-DSP 1, at two corners. -/
theorem test_cls :
    pixelsAfter 0x00E0 ((withV [(15, 7)]).setDisp (Vector.replicate 64 (Vector.replicate 32 true)))
      [(0, 0), (63, 31)] = some ([false, false], 7) := by decide

/-- D-DSP 2 and 8: glyph 0 at (0, 0) and clipped at the lower edge. -/
theorem test_drw_glyph :
    pixelsAfter 0xD015 State.reset [(0, 0), (3, 0), (4, 0), (0, 1), (1, 1), (3, 3), (2, 4), (0, 5)] =
      some ([true, true, false, true, false, true, true, false], 0) ∧
    pixelsAfter 0xD015 (withV [(1, 30)]) [(0, 30), (3, 31), (1, 31), (0, 0)] = some ([true, true, false, false], 0) := by
  decide

/-- D-DSP 5, 7 and 15: a collision and a pixel turned on; clipped at the right edge, with no wrap; VF as a coordinate. -/
theorem test_drw_collision_and_clip :
    pixelsAfter 0xD011 (((withV [(0, 10), (1, 20)]).setI 0x301).setDisp (onePixel 10 20) |> withBytes 0x301 [0xC0])
      [(10, 20), (11, 20), (12, 20)] = some ([false, true, false], 1) ∧
    pixelsAfter 0xD011 (((withV [(0, 60)]).setI 0x300).setDisp (onePixel 0 0) |> withBytes 0x300 [0xFF])
      [(59, 0), (60, 0), (63, 0), (0, 0), (1, 0)] = some ([false, true, true, true, false], 0) ∧
    pixelsAfter 0xDF01 ((withV [(15, 5)]).setI 0x300 |> withBytes 0x300 [0x80]) [(5, 0), (6, 0)] =
      some ([true, false], 0) := by decide

/-- D-KTR 1, 2 and 6. -/
theorem test_skp :
    pcCycle 0xE19E (((withV [(1, 5)]).setPc 0x230).setKeys (State.reset.keys.set 5 true)) = some 0x234 ∧
    pcCycle 0xE19E ((withV [(1, 5)]).setPc 0x230) = some 0x232 ∧
    cycleError 0xE19E (withV [(1, 16)]) = some (.keyOperandOutOfRange 16) := by decide

/-- D-KTR 3, 4 and 7. -/
theorem test_sknp :
    pcCycle 0xE1A1 ((withV [(1, 5)]).setPc 0x230) = some 0x234 ∧
    pcCycle 0xE1A1 (((withV [(1, 5)]).setPc 0x230).setKeys (State.reset.keys.set 5 true)) = some 0x232 ∧
    cycleError 0xE1A1 (withV [(1, 0xFF)]) = some (.keyOperandOutOfRange 0xFF) := by decide

/-- The core's cycle on the word `w` at `pc`, with injected draws: a register, VF, `pc`, DT and the tone. -/
def drawCycle (d : Draws) (w : Nat) (s : State) (r : Reg) : Option (Byte × Byte × Addr × Byte × Bool) :=
  match coreCycle d (s.withFetchWord 16 w).toCoreState with
  | .ok tone c => some (c.V[r], c.V[VF], c.pc, c.DT, tone)
  | .err _ _ => none
  | .suspended => none

/-- W10 and D-KTR 8 to 11, with the provider's answer injected: 0xA, 0, 7 and none. -/
theorem test_ldVxK_answer :
    drawCycle ⟨0, some 0xA⟩ 0xF30A (State.reset.setPc 0x240) 3 = some (0x0A, 0, 0x242, 0, false) ∧
    drawCycle ⟨0, some 0⟩ 0xFF0A (((withV [(15, 9)]).setDT 3).setST 1) 15 = some (0, 0, 0x202, 2, true) ∧
    (keyAnswered 0 7 (State.reset.setKeys (State.reset.keys.set 2 true))).keys[2] = true ∧
    coreCycle ⟨0, none⟩ (State.reset.withFetchWord 16 0xF00A).toCoreState = .suspended := by decide

/-- D-KTR 11: no step, no tick. -/
theorem test_ldVxK_silent :
    nextOf (step (((State.reset.setDT 3).setKeyProvider .silent).withFetchWord 16 0xF00A)) = none ∧
    executeCycle (((State.reset.setDT 3).setKeyProvider .silent).withFetchWord 16 0xF00A) = .suspended := by
  decide

/-- D-KTR 12, 13. -/
theorem test_ldVxDT :
    (cycle 0xF007 (State.reset.setDT 0x10)).map (fun t => (t.V[0], t.DT)) = some (0x10, 0x0F) ∧
    (cycle 0xF007 State.reset).map (fun t => (t.V[0], t.DT)) = some (0, 0) := by decide

/-- D-KTR 14, 16. -/
theorem test_ldDT :
    (cycle 0xF015 (withV [(0, 0x3C)])).map (·.DT) = some 0x3B ∧
    (cycle 0xF015 (State.reset.setDT 9)).map (·.DT) = some 0 := by decide

/-- D-KTR 17, 18, 20: the tone sounds in the cycle whose tick takes ST from 1 to 0. -/
theorem test_ldST :
    (cycle 0xF018 (withV [(0, 1)])).map (fun t => (t.tone, t.ST)) = some (true, 0) ∧
    (cycle 0xF018 (withV [(0, 2)])).map (fun t => (t.tone, t.ST)) = some (false, 1) ∧
    (cycle 0xF018 ((withV [(0, 5)]).setST 1)).map (fun t => (t.tone, t.ST)) = some (false, 4) := by decide

/-- D-KTR 21 and 22, with the draw 0xA7 injected. -/
theorem test_rnd :
    drawCycle ⟨0xA7, none⟩ 0xC20F State.reset 2 = some (0x07, 0, 0x202, 0, false) ∧
    drawCycle ⟨0xA7, none⟩ 0xC2FF State.reset 2 = some (0xA7, 0, 0x202, 0, false) := by decide

/-- D-KTR 23 and 24, with the draws 0xA7 and 0x3C injected. -/
theorem test_rnd_mask :
    drawCycle ⟨0xA7, none⟩ 0xC200 State.reset 2 = some (0, 0, 0x202, 0, false) ∧
    drawCycle ⟨0x3C, none⟩ 0xCF81 (withV [(15, 9)]) 15 = some (0, 0, 0x202, 0, false) := by decide

/-! ### The cycle and the host's transactions -/

/-- D-CYC 2, 5: a fetch at the last legal address, and at an odd one. -/
theorem test_fetch_anywhere :
    regCycle 0x6A01 (State.reset.setPc 0xFFE) 10 = some (1, 0, 0x1000) ∧
    regCycle 0x6107 (State.reset.setPc 0x201) 1 = some (7, 0, 0x203) := by decide

/-- D-CYC 3, 4: the word is not placed, since nothing can be fetched there. -/
theorem test_fetch_range :
    cycleError 0x6000 (State.reset.setPc 0x1000) = some (.pcOutOfRange 0x1000) ∧
    cycleError 0x6000 (State.reset.setPc 0xFFF) = some (.pcOutOfRange 0xFFF) := by decide

/-- D-CYC 6 and 11, D-ERR 2 and 4: an invalid word comes before any check of an instruction. -/
theorem test_decode_errors :
    faultOf (step State.reset) = some (.invalidOpcode 0x0000) ∧
    cycleError 0x5121 (State.reset.setStack (List.replicate 16 0x200)) = some (.invalidOpcode 0x5121) ∧
    cycleError 0xE09F (withV [(0, 0x20)]) = some (.invalidOpcode 0xE09F) := by decide

/-- D-HOST 1 and 5 to 7. -/
theorem test_host_operations :
    (loadProgram [0x60, 0x01] (State.reset.setPc 0x250)).toOption.map (fun t => (t.mem, t.pc)) =
      some ([(0x200, 0x60), (0x201, 0x01)], 0x250) ∧
    (setKey 15 true State.reset).toOption.map (fun t => t.keys[15]) = some true ∧
    (setKey 16 true State.reset).toOption = none ∧ State.reset.mem.readBytes 0 5 = [0xF0, 0x90, 0x90, 0x90, 0xF0] := by
  decide

/-- The three ends of a run (R119): one cycle of an idle loop, the loop's own address, and the error of an empty core. -/
theorem test_run_ends :
    (∃ t, EndsIn (.afterCycles 1) (State.reset.withFetchWord 16 0x1200) t ∧ t.pc = 0x200) ∧
    EndsIn (.atIdleAddress 0x200) (State.reset.withFetchWord 16 0x1200) (State.reset.withFetchWord 16 0x1200) ∧
    (State.reset.withFetchWord 16 0x1200).idlesAt 0x200 ∧ EndsIn .atFirstError State.reset State.reset := by
  refine ⟨⟨_, .cycle 0 _ _ _ rfl (.done _), rfl⟩, ⟨0, .done _, rfl, ?_⟩, ⟨rfl, 0x200, rfl, rfl⟩, 0, _, .done _, rfl⟩
  intro m u h
  exact absurd h (Nat.not_lt_zero m)

/-! ### Witnesses: for every statement with hypotheses a state and operands that meet them, at the ends of their ranges -/

/-- The state after `new()` with the word `w` at address `a` and `pc` there. -/
def placed (a : Addr) (w : Nat) : State := (State.reset.setPc a).withFetchWord 16 w

theorem witness_DecodeOfEncode : (Instr.drw 15 15 15).wellFormed = true := by decide

theorem witness_EncodeOfDecode : decode 0xDFFF = .instr (.drw 15 15 15) := by decide

theorem witness_InvalidWordsAreTheListed :
    (placed 0xFFE 0x0000).pc.toNat ≤ 0x0FFE ∧
    invalidByList ((placed 0xFFE 0x0000).mem.read 0xFFE ++ (placed 0xFFE 0x0000).mem.read 0xFFF) :=
  ⟨by decide, .inl (by decide)⟩

theorem witness_DecoderAgreesWithTable :
    decode 0x8AB6 = .instr (.shr 10 11) ∧ (⟨0xF00F, 0x8006⟩ : TableRow) ∈ opcodeTable ∧
    (0x8AB6 : Word) &&& 0xF00F = 0x8006 := by decide

/-- StepRunsDecodedInstruction, PlacedWordIsFetched: the highest fetch address. -/
theorem witness_fetch :
    (placed 0xFFE 0x6A01).pc.toNat ≤ 0x0FFE ∧ (placed 0xFFE 0x6A01).mem.wf ∧
    decode ((placed 0xFFE 0x6A01).mem.read 0xFFE ++ (placed 0xFFE 0x6A01).mem.read 0xFFF) = .instr (.ldImm 10 1) := by decide

theorem witness_CycleSequence_range : (State.reset.setPc 0xFFF).pc.toNat > 0x0FFE := by decide

theorem witness_CycleSequence_decode :
    State.reset.pc.toNat ≤ 0x0FFE ∧ decode (State.reset.mem.read 0x200 ++ State.reset.mem.read 0x201) =
      .invalidOpcode (State.reset.mem.read 0x200 ++ State.reset.mem.read 0x201) := by decide

theorem witness_CycleSequence_error :
    decode ((placed 0xFFE 0x00EE).mem.read 0xFFE ++ (placed 0xFFE 0x00EE).mem.read 0xFFF) = .instr .ret ∧
    exec .ret (placed 0xFFE 0x00EE) = .fault .stackUnderflow := ⟨by decide, rfl⟩

theorem witness_CycleSequence_completes :
    decode ((placed 0xFFE 0x6A01).mem.read 0xFFE ++ (placed 0xFFE 0x6A01).mem.read 0xFFF) = .instr (.ldImm 10 1) ∧
    ∃ t, exec (.ldImm 10 1) (placed 0xFFE 0x6A01) = .next t := ⟨by decide, _, rfl⟩

theorem witness_TimerLoadsTickInTheSameCycle :
    (placed 0x200 0xF015).fetch = .ok (.ldDT 0) ∧ (∃ b t, executeCycle (placed 0x200 0xF015) = .ok b t) ∧
    (placed 0x200 0xF018).fetch = .ok (.ldST 0) ∧ (∃ b t, executeCycle (placed 0x200 0xF018) = .ok b t) ∧
    (placed 0x200 0xF007).fetch = .ok (.ldVxDT 0) ∧ ∃ b t, executeCycle (placed 0x200 0xF007) = .ok b t :=
  ⟨rfl, ⟨_, _, rfl⟩, rfl, ⟨_, _, rfl⟩, rfl, _, _, rfl⟩

/-- D-CYC 8 and 10: one cycle of an idle loop with ST = 1 sounds the tone; the run of no cycle is quiet too. -/
theorem witness_ToneIsOneShot :
    QuietRun 0 State.reset State.reset [] ∧ ∃ t, QuietRun 1 ((placed 0x200 0x1200).setST 1) t [true] := by
  refine ⟨.done _, _, .cycle 0 _ _ _ true [] ?_ rfl (.done _)⟩
  intro x
  have : ((placed 0x200 0x1200).setST 1).fetch = .ok (.jp 0x200) := rfl
  rw [this]
  exact fun h => by cases h

/-- CycleErrorsExactly and the error clauses of the instruction statements, each at the first value out of range. -/
theorem witness_errors :
    faultOf (exec .ret State.reset) = some .stackUnderflow ∧
    faultOf (exec (.call 0) (State.reset.setStack (List.replicate 16 0xFFE))) = some .stackOverflow ∧
    faultOf (exec (.drw 0 1 3) (State.reset.setI 0xFFE)) = some (.memoryOutOfRange 0xFFE 3) ∧
    faultOf (exec (.ldB 0) (State.reset.setI 0xFFE)) = some (.memoryOutOfRange 0xFFE 3) ∧
    faultOf (exec (.stRegs 15) (State.reset.setI 0xFF1)) = some (.memoryOutOfRange 0xFF1 16) ∧
    faultOf (exec (.ldRegs 15) (State.reset.setI 0xFF1)) = some (.memoryOutOfRange 0xFF1 16) ∧
    faultOf (exec (.ldF 1) (withV [(1, 16)])) = some (.glyphOutOfRange 16) ∧
    faultOf (exec (.skp 1) (withV [(1, 16)])) = some (.keyOperandOutOfRange 16) ∧
    faultOf (exec (.sknp 1) (withV [(1, 16)])) = some (.keyOperandOutOfRange 16) := by decide

/-- CycleErrorsExactly: a full stack is allowed, and the error is the CALL's. -/
theorem witness_CycleErrorsExactly :
    ((placed 0xFFE 0x2400).setStack (List.replicate 16 0xFFE)).stack.length ≤ 16 ∧
    step ((placed 0xFFE 0x2400).setStack (List.replicate 16 0xFFE)) = .fault .stackOverflow := ⟨by decide, rfl⟩

theorem witness_ErrorRepeats :
    executeCycle State.reset = .err (.invalidOpcode 0x0000) State.reset ∧
    ∃ t, setKey 15 true State.reset = .ok t := ⟨rfl, _, rfl⟩

theorem witness_OnlySilentKeyWaitSuspends :
    exec (.ldVxK 3) (State.reset.setKeyProvider .silent) = .refused .keyWaitSuspended := rfl

theorem witness_CallPushesItsOwnAddress :
    (State.reset.setStack (List.replicate 15 0x200)).stack.length < 16 ∧
    (State.reset.setStack (List.replicate 16 0x200)).stack.length = 16 := by decide

theorem witness_ReturnPopsTheTop :
    (State.reset.setStack [0x222, 0x204]).stack = [0x222] ++ [0x204] ∧ State.reset.stack = [] := by decide

theorem witness_ReturnUndoesCall :
    ∃ t, exec (.call 0x300) State.reset = .next t ∧ (State.reset.setStack [0x200]).stack = t.stack := ⟨_, rfl, rfl⟩

/-- ArithmeticLaws: each of the five from a state with V1 = 0x81 and V2 = 0x80. -/
theorem witness_ArithmeticLaws :
    (1 : Reg) ≠ VF ∧
    ∀ i ∈ [Instr.addReg 1 2, .subReg 1 2, .subnReg 1 2, .shr 1 2, .shl 1 2],
      ((nextOf (exec i (withV [(1, 0x81), (2, 0x80)]))).isSome = true) := by decide

theorem witness_GlyphAddressIsFiveTimesDigit : (withV [(3, 15)]).V[3].toNat ≤ 15 ∧ (withV [(3, 16)]).V[3].toNat > 15 := by
  decide

theorem witness_BcdStoresThreeDigits :
    (State.reset.setI 0xFFD).mem.wf ∧ (State.reset.setI 0xFFD).I.toNat + 2 ≤ 0xFFF ∧
    (State.reset.setI 0xFFE).mem.wf ∧ (State.reset.setI 0xFFE).I.toNat + 2 > 0xFFF := by decide

/-- RegisterDumpStoresUpToX and RegisterLoadFillsUpToX. -/
theorem witness_register_range :
    (State.reset.setI 0xFF0).mem.wf ∧ (State.reset.setI 0xFF0).I.toNat + (15 : Reg).val ≤ 0xFFF ∧
    (State.reset.setI 0xFF1).mem.wf ∧ (State.reset.setI 0xFF1).I.toNat + (15 : Reg).val > 0xFFF := by decide

theorem witness_LoadRestoresDump :
    (State.reset.setI 0xFF0).mem.wf ∧ ∃ t u v, exec (.stRegs 15) (State.reset.setI 0xFF0) = .next t ∧ u.mem = t.mem ∧
      u.I = (State.reset.setI 0xFF0).I ∧ exec (.ldRegs 15) u = .next v := ⟨by decide, _, _, _, rfl, rfl, rfl, rfl⟩

/-- StoredCodeIsFetched: D-MEM 22. -/
theorem witness_StoredCodeIsFetched :
    ((withV [(0, 0x60), (1, 0x07)]).setI 0x202).mem.wf ∧ 1 ≤ (1 : Reg).val ∧
    (∃ t, exec (.stRegs 1) ((withV [(0, 0x60), (1, 0x07)]).setI 0x202) = .next t ∧ t.pc = 0x202) ∧
    ((withV [(0, 0x60), (1, 0x07)]).setI 0x202).I.toNat ≤ 0x0FFE ∧
    decode ((withV [(0, 0x60), (1, 0x07)]).V[0] ++ (withV [(0, 0x60), (1, 0x07)]).V[1]) = .instr (.ldImm 0 7) :=
  ⟨by decide, by decide, ⟨_, rfl, rfl⟩, by decide, by decide⟩

/-- DrawXorsSpriteAndSetsCollision: no rows with any `I`, the last address, a collision, none, and the range. -/
theorem witness_DrawXorsSpriteAndSetsCollision :
    (0 : BitVec 4) = 0 ∧ (State.reset.setI 0xFFD).I.toNat + (3 : BitVec 4).toNat - 1 ≤ 0xFFF ∧
    ((State.reset.setDisp (onePixel 0 0)).disp[(0 : Fin 64)][(0 : Fin 32)] = true ∧
      spriteBit (State.reset.setDisp (onePixel 0 0)) 0 0 5 0 0 = true) ∧
    (∀ (c : Fin 64) (r : Fin 32), State.reset.disp[c][r] = true → spriteBit State.reset 0 0 5 c.val r.val = false) ∧
    (3 : BitVec 4) ≠ 0 ∧ (State.reset.setI 0xFFE).I.toNat + (3 : BitVec 4).toNat - 1 > 0xFFF := by
  refine ⟨rfl, by decide, by decide, ?_, by decide, by decide⟩
  intro c r h
  simp [State.reset] at h

theorem witness_DrawTwiceRestores :
    (0 : Reg) ≠ VF ∧ (1 : Reg) ≠ VF ∧ 5 < 16 ∧ ∃ t, exec (.drw 0 1 5) State.reset = .next t :=
  ⟨by decide, by decide, by decide, _, rfl⟩

theorem witness_KeySkips : (withV [(1, 15)]).V[1].toNat = (15 : Key).val ∧ (withV [(1, 16)]).V[1].toNat > 15 := by decide

theorem witness_KeyWaitStoresTheAnswer :
    State.reset.keyProvider = .answers ∧ ((placed 0x200 0xF30A).setKeyProvider .silent).keyProvider = .silent ∧
    ((placed 0x200 0xF30A).setKeyProvider .silent).fetch = .ok (.ldVxK 3) := ⟨rfl, rfl, rfl⟩

/-- The frames OnlyStoresWriteMemory, OnlyIndexInstructionsWriteI, OnlyTheirInstructionsChangeStackAndTimers, OnlyClsAndDrwChangeDisplay
and OnlyKeySkipsReadTheKeypad: `ADD V0, V1` completes and is none of the instructions they except. -/
theorem witness_frames :
    (∃ t, exec (.addReg 0 1) State.reset = .next t) ∧ (∀ x, Instr.addReg 0 1 ≠ .ldB x) ∧
    (∀ x, Instr.addReg 0 1 ≠ .stRegs x) ∧ (∀ nnn, Instr.addReg 0 1 ≠ .ldI nnn) ∧ (∀ x, Instr.addReg 0 1 ≠ .addI x) ∧
    (∀ x, Instr.addReg 0 1 ≠ .ldF x) ∧ (∀ nnn, Instr.addReg 0 1 ≠ .call nnn) ∧ Instr.addReg 0 1 ≠ .ret ∧
    (∀ x, Instr.addReg 0 1 ≠ .ldDT x) ∧ (∀ x, Instr.addReg 0 1 ≠ .ldST x) ∧ Instr.addReg 0 1 ≠ .cls ∧
    (∀ x y n, Instr.addReg 0 1 ≠ .drw x y n) ∧ (∀ x, Instr.addReg 0 1 ≠ .skp x) ∧ ∀ x, Instr.addReg 0 1 ≠ .sknp x := by
  refine ⟨⟨_, rfl⟩, ?_⟩
  simp

theorem witness_OnlyDestinationsChange :
    (∃ t, exec (.addReg 0 1) State.reset = .next t) ∧ ¬ mayWrite (.addReg 0 1) 2 :=
  ⟨⟨_, rfl⟩, by unfold mayWrite; decide⟩

theorem reset_inv : State.reset.Inv := by
  refine ⟨by decide, by decide, ?_, by decide⟩
  intro a ha
  simp [State.reset] at ha

/-- NewPcIsTheTables: the highest fetch address, for a jump, and for a return to the highest stacked one; and an error. -/
theorem witness_NewPcIsTheTables :
    ((placed 0xFFE 0x00EE).setStack [0xFFE]).Inv ∧ ((placed 0xFFE 0x00EE).setStack [0xFFE]).pc.toNat ≤ 0x0FFE ∧
    ((placed 0xFFE 0x00EE).setStack [0xFFE]).stack.getLast? = some 0xFFE ∧
    (∃ t, exec .ret ((placed 0xFFE 0x00EE).setStack [0xFFE]) = .next t) ∧ (Instr.jpV0 0xFFF) ≠ .ret ∧
    (∃ t, exec (.jpV0 0xFFF) ((placed 0xFFE 0x00EE).setStack [0xFFE]) = .next t) ∧
    executeCycle State.reset = .err (.invalidOpcode 0) State.reset := by
  refine ⟨⟨by decide, by decide, ?_, by decide⟩, by decide, rfl, ⟨_, rfl⟩, by decide, ⟨_, rfl⟩, rfl⟩
  intro a ha
  simp only [State.setStack, List.mem_singleton] at ha
  subst ha
  decide

theorem witness_StepKeepsTheInvariant : (placed 0x200 0x1200).Inv ∧ ∃ t, step (placed 0x200 0x1200) = .next t := by
  refine ⟨⟨by decide, by decide, ?_, by decide⟩, _, rfl⟩
  intro a ha
  change a ∈ [] at ha
  simp at ha

theorem witness_ReachableStatesMeetTheInvariant :
    ∃ s t : State, Reach s ∧ loadProgram [0x12, 0x00] s = .ok t ∧ Reach t :=
  ⟨_, _, .new (Vector.replicate 80 0xFF), rfl, .load _ _ [0x12, 0x00] (.new (Vector.replicate 80 0xFF)) rfl⟩

/-- Memories written in two orders are alike, and not empty. -/
theorem witness_CanonicalMemoriesThatReadAlikeAreEqual :
    let m := Memory.write (Memory.write [] 0x300 1) 0x301 2
    let m' := Memory.write (Memory.write [] 0x301 2) 0x300 1
    m.wf ∧ m'.wf ∧ (∀ a, m.read a = m'.read a) ∧ m = [(0x300, 1), (0x301, 2)] :=
  ⟨by decide, by decide, fun _ => rfl, by decide⟩

theorem witness_LoadWritesTheProgramOnly :
    State.reset.mem.wf ∧ (List.replicate 3584 (0xAA : Byte)).length ≤ 3584 ∧
    (List.replicate 3585 (0xAA : Byte)).length > 3584 := by
  simp only [List.length_replicate]
  exact ⟨by decide, by decide, by decide⟩

theorem witness_SetKeyWritesOneKey :
    15 < 16 ∧ (0 : Key).val ≠ 15 ∧ 16 > 15 ∧ (∃ b t, executeCycle (placed 0x200 0x1200) = .ok b t) ∧
    ∃ t, loadProgram [] State.reset = .ok t := ⟨by decide, by decide, by decide, ⟨_, _, rfl⟩, _, rfl⟩

end Sys2Proof.Tests
end

section
/-! What an instruction that completes leaves behind: said once for all 34, and every frame and invariant below is read
off it. -/

namespace Sys2Proof.Machine

variable {i : Instr} {s t : State}

/-- The check an instruction makes before any change (60_exceptions.md R101); the others make none. -/
def completes (i : Instr) (s : State) : Prop :=
  match i with
  | .ret => s.stack ≠ []
  | .call _ => s.stack.length < Config.stackDepth
  | .ldF x | .skp x | .sknp x => isHexDigit (s.readV x) = true
  | .drw _ _ n => inMemory s.I n = true
  | .ldB _ => inMemory s.I 3 = true
  | .stRegs x | .ldRegs x => inMemory s.I (x.val + 1) = true
  | .ldVxK _ => s.keyProvider = .answers
  | _ => True

/-- The state an instruction leaves when it completes: what follows the check where it makes one, and what `exec` answers
where it makes none. -/
def effect (i : Instr) (s : State) : State :=
  match i with
  | .ret => (s.setStack s.stack.dropLast).setPc (s.stack.getLastD 0 + 2)
  | .call nnn => (s.push s.pc).setPc (zext16 nnn)
  | .ldF x => (s.setI (glyphAddress (s.readV x))).advance
  | .skp x => s.skipIf s.keys[keyOf (s.readV x)]
  | .sknp x => s.skipIf !s.keys[keyOf (s.readV x)]
  | .drw x y n => ((s.setDisp (s.drawn x y n).1).writeV VF (collisionFlag (s.drawn x y n).2)).advance
  | .ldB x => (s.setMem (s.mem.writeBytes s.I.toNat (bcdDigits (s.readV x)))).advance
  | .stRegs x => (s.setMem (s.mem.writeBytes s.I.toNat (s.regsUpTo x))).advance
  | .ldRegs x => (s.loadRegs s.I.toNat x).advance
  | .ldVxK x => keyAnswered x (Config.keyAnswer s.keyWaits) s
  | i => (nextOf (exec i s)).getD s

/-- A checked result goes on exactly when the check passes. -/
theorem ite_eq_next {c : Prop} [Decidable c] {u : State} {r : Result} (hr : ∀ v, r ≠ .next v) :
    (if c then .next u else r) = .next t ↔ c ∧ u = t := by
  split <;> simp_all

theorem raise_ne_next (e : Fault) (v : State) : raise e ≠ .next v := nofun

theorem next_eq_next {u : State} : (.next u : Result) = .next t ↔ True ∧ u = t := by simp

theorem execRet_eq_next : execRet s = .next t ↔ s.stack ≠ [] ∧ effect .ret s = t := by
  unfold execRet
  cases h : s.stack.getLast? with
  | none => simp_all [raise]
  | some a =>
    have hne : s.stack ≠ [] := List.ne_nil_of_mem (List.mem_of_getLast? h)
    simp [effect, h, hne]

/-- An instruction completes exactly when its check passes, and then leaves `effect i s`. -/
theorem exec_eq_next : exec i s = .next t ↔ completes i s ∧ effect i s = t := by
  cases i with
  | ret => exact execRet_eq_next
  | call | ldF | skp | sknp => exact ite_eq_next (raise_ne_next _)
  | drw | ldB | stRegs | ldRegs => exact withRange_eq_next
  | ldVxK x =>
    show execLdVxK x s = .next t ↔ _
    rw [execLdVxK_eq]
    exact ite_eq_next nofun
  | _ => exact next_eq_next

end Sys2Proof.Machine
end

section
/-! The frames of 10_state.md: which instructions may change each field of the core. -/

namespace Sys2Proof.Machine

variable {i : Instr} {s t : State}

/-! ### One frame for each field

The case of `ldRegs` goes through the simp lemmas of State: `rfl` would compare the sixteen loaded registers first. -/

/-- Only the two stores write memory (20_memory.md R32). -/
theorem effect_mem (hLdB : ∀ x, i ≠ .ldB x) (hStRegs : ∀ x, i ≠ .stRegs x) : (effect i s).mem = s.mem := by
  cases i with
  | ldB x => exact absurd rfl (hLdB x)
  | stRegs x => exact absurd rfl (hStRegs x)
  | ldRegs => simp [effect]
  | _ => rfl

theorem effect_I (hLdI : ∀ nnn, i ≠ .ldI nnn) (hAddI : ∀ x, i ≠ .addI x) (hLdF : ∀ x, i ≠ .ldF x) :
    (effect i s).I = s.I := by
  cases i with
  | ldI nnn => exact absurd rfl (hLdI nnn)
  | addI x => exact absurd rfl (hAddI x)
  | ldF x => exact absurd rfl (hLdF x)
  | ldRegs => simp [effect]
  | _ => rfl

theorem effect_stack (hCall : ∀ nnn, i ≠ .call nnn) (hRet : i ≠ .ret) : (effect i s).stack = s.stack := by
  cases i with
  | call nnn => exact absurd rfl (hCall nnn)
  | ret => exact absurd rfl hRet
  | ldRegs => simp [effect]
  | _ => rfl

theorem effect_DT (h : ∀ x, i ≠ .ldDT x) : (effect i s).DT = s.DT := by
  cases i with
  | ldDT x => exact absurd rfl (h x)
  | ldRegs => simp [effect]
  | _ => rfl

theorem effect_ST (h : ∀ x, i ≠ .ldST x) : (effect i s).ST = s.ST := by
  cases i with
  | ldST x => exact absurd rfl (h x)
  | ldRegs => simp [effect]
  | _ => rfl

theorem effect_disp (hCls : i ≠ .cls) (hDrw : ∀ x y n, i ≠ .drw x y n) : (effect i s).disp = s.disp := by
  cases i with
  | cls => exact absurd rfl hCls
  | drw x y n => exact absurd rfl (hDrw x y n)
  | ldRegs => simp [effect]
  | _ => rfl

/-- No instruction writes the keypad latch (R26). -/
@[simp] theorem effect_keys : (effect i s).keys = s.keys := by
  cases i with
  | ldRegs => simp [effect]
  | _ => rfl

/-- Settles O44: the instructions that write `I` are the three excepted. -/
theorem onlyIndexInstructionsWriteI : Obligations.OnlyIndexInstructionsWriteI := by
  intro i s t h
  obtain ⟨-, rfl⟩ := exec_eq_next.mp h
  exact effect_I

/-- Settles O45, field by field. -/
theorem onlyTheirInstructionsChangeStackAndTimers : Obligations.OnlyTheirInstructionsChangeStackAndTimers := by
  intro i s t h
  obtain ⟨-, rfl⟩ := exec_eq_next.mp h
  exact ⟨effect_stack, effect_DT, effect_ST⟩

/-- Settles O46: the instructions that write the display are the two excepted. -/
theorem onlyClsAndDrwChangeDisplay : Obligations.OnlyClsAndDrwChangeDisplay := by
  intro i s t h
  obtain ⟨-, rfl⟩ := exec_eq_next.mp h
  exact effect_disp

/-! ### The general registers -/

theorem readV_writeV_of_ne {x r : Reg} (h : r ≠ x) (b : Byte) : (s.writeV x b).readV r = s.readV r := by
  rw [State.readV_writeV, if_neg h.symm]

theorem readV_writeResultFlag_of_ne {x r : Reg} (h : ¬ (r = x ∨ r = VF)) (result flag : Byte) :
    (s.writeResultFlag x result flag).readV r = s.readV r := by
  obtain ⟨hx, hVF⟩ := not_or.mp h
  rw [State.writeResultFlag, readV_writeV_of_ne hVF, readV_writeV_of_ne hx]

theorem readV_loadRegs_of_gt {x r : Reg} (h : ¬ r ≤ x) (base : Nat) : (s.loadRegs base x).readV r = s.readV r := by
  rw [State.readV_loadRegs]
  exact if_neg h

theorem readV_advance (r : Reg) : s.advance.readV r = s.readV r := rfl

/-- A register an instruction may not write reads as before. -/
theorem readV_effect {r : Reg} (hr : ¬ mayWrite i r) : (effect i s).readV r = s.readV r := by
  cases i with
  | ldImm | addImm | ldReg | orReg | andReg | xorReg | ldVxDT | ldVxK | rnd => exact readV_writeV_of_ne hr _
  | drw => exact (readV_advance r).trans (readV_writeV_of_ne hr _)
  | addReg | subReg | shr | subnReg | shl => exact (readV_advance r).trans (readV_writeResultFlag_of_ne hr _ _)
  | ldRegs => exact (readV_advance r).trans (readV_loadRegs_of_gt hr _)
  | _ => rfl

/-- Settles O47: the registers `mayWrite` leaves out read as before. -/
theorem onlyDestinationsChange : Obligations.OnlyDestinationsChange := by
  intro i s t r h hr
  obtain ⟨-, rfl⟩ := exec_eq_next.mp h
  exact readV_effect hr

/-! ### What is not read: the keypad latch and ST -/

/-- A change may be made after a checked result or before it, when it is the same to the state the check lets through
and to what the check stops with. -/
theorem ite_eq_mapNext {c : Prop} {_ : Decidable c} {f : State → State} {u u' : State} {r r' : Result}
    (hu : u' = f u) (hr : r' = mapNext f r) :
    (if c then .next u' else r') = mapNext f (if c then .next u else r) := by
  subst hu hr
  split <;> rfl

/-- Only the key skips read the keypad latch (R26, D19). -/
theorem exec_setKeys (hSkp : ∀ x, i ≠ .skp x) (hSknp : ∀ x, i ≠ .sknp x) (keys : Vector Bool 16) :
    exec i (s.setKeys keys) = mapNext (·.setKeys keys) (exec i s) := by
  cases i with
  | skp x => exact absurd rfl (hSkp x)
  | sknp x => exact absurd rfl (hSknp x)
  | call | ldF | drw | ldB | stRegs | ldRegs => exact ite_eq_mapNext (by rfl) (by rfl)
  | ret => simp only [exec, execRet, State.setKeys_stack]; cases s.stack.getLast? <;> rfl
  | ldVxK x => simp only [exec, execLdVxK_eq]; exact ite_eq_mapNext (by rfl) (by rfl)
  | _ => rfl

/-- Settles O49: the latch is carried through by the instructions that do not read it, and kept by all. -/
theorem onlyKeySkipsReadTheKeypad : Obligations.OnlyKeySkipsReadTheKeypad := by
  intro i s keys
  refine ⟨fun hSkp hSknp => exec_setKeys hSkp hSknp keys, fun t h => ?_⟩
  obtain ⟨-, rfl⟩ := exec_eq_next.mp h
  exact effect_keys

/-- An instruction but `LD ST, Vx` neither reads nor writes `ST` (R22, R28). -/
theorem exec_setST (h : ∀ x, i ≠ .ldST x) (v : Byte) : exec i (s.setST v) = mapNext (·.setST v) (exec i s) := by
  cases i with
  | ldST x => exact absurd rfl (h x)
  | call | ldF | skp | sknp | drw | ldB | stRegs | ldRegs => exact ite_eq_mapNext (by rfl) (by rfl)
  | ret => simp only [exec, execRet, State.setST_stack]; cases s.stack.getLast? <;> rfl
  | ldVxK x => simp only [exec, execLdVxK_eq]; exact ite_eq_mapNext (by rfl) (by rfl)
  | _ => rfl

/-- Settles O50: `LD ST, Vx` overwrites the value, every other instruction carries it through. -/
theorem noInstructionReadsST : Obligations.NoInstructionReadsST := by
  intro i s v
  cases i with
  | ldST x => rfl
  | _ => exact exec_setST (by simp) v

end Sys2Proof.Machine
end

section
/-! The sound timer over a run: one down a cycle, and one tone (10_state.md R27, 40_cycle.md R56). -/

namespace Sys2Proof.Machine

variable {s t : State}

/-- A cycle that does not load `ST` counts it down and sounds exactly when it was 1. -/
theorem quiet_cycle {b : Bool} (hq : ∀ x, s.fetch ≠ .ok (.ldST x)) (h : executeCycle s = .ok b t) :
    t.ST.toNat = s.ST.toNat - 1 ∧ (b = true ↔ s.ST.toNat = 1) := by
  obtain ⟨hstep, rfl⟩ := executeCycle_eq_ok.mp h
  obtain ⟨i, u, hfetch, hexec, rfl⟩ := step_eq_next.mp hstep
  obtain ⟨-, rfl⟩ := exec_eq_next.mp hexec
  have hST : (effect i s).ST = s.ST := effect_ST fun x hx => hq x (hx ▸ hfetch)
  rw [State.tick_ST, State.tick_tone, hST, toNat_countdown]
  exact ⟨rfl, by rw [beq_iff_eq, ← BitVec.toNat_inj]; rfl⟩

/-- Settles O9, by induction on the run: the first cycle's tone is `quiet_cycle`, and every later one is a tone of the
run from the next state, where `ST` is one lower. -/
theorem toneIsOneShot : Obligations.ToneIsOneShot := by
  intro n s t tones hrun
  induction hrun with
  | done s => exact ⟨rfl, rfl, nofun⟩
  | cycle n s t u b bs hq hcycle _ ih =>
    obtain ⟨hST, htone⟩ := quiet_cycle hq hcycle
    obtain ⟨ihST, ihlen, ihtones⟩ := ih
    refine ⟨by omega, by simp [ihlen], fun k hk => ?_⟩
    cases k with
    | zero => exact htone
    | succ k =>
      have hk' : k < bs.length := Nat.lt_of_succ_lt_succ hk
      rw [List.getElem_cons_succ, ihtones k hk']
      omega

end Sys2Proof.Machine
end

section
/-! The invariant: it holds of a new core, and every step and every transaction of the host keeps it (10_state.md R20,
R21, R23). -/

namespace Sys2Proof.Machine

variable {i : Instr} {s t : State}

/-! ### pc -/

theorem toNat_zext16 (nnn : Addr12) : (zext16 nnn).toNat = nnn.toNat := by
  rw [zext16, BitVec.toNat_ofNat]
  omega

theorem toNat_indexedTarget (nnn : Addr12) (v : Byte) : (indexedTarget nnn v).toNat = nnn.toNat + v.toNat := by
  rw [indexedTarget, BitVec.toNat_ofNat]
  omega

/-- A fetched address or a stacked one plus 2 or 4 does not wrap. -/
theorem toNat_add_le {a d : Addr} (ha : a.toNat ≤ 0x0FFE) (hd : d.toNat ≤ 4) : (a + d).toNat ≤ 0x10FE := by
  rw [BitVec.toNat_add]
  omega

theorem toNat_skip_le (c : Bool) : (if c then 4 else 2 : Addr).toNat ≤ 4 := by
  cases c <;> decide

/-- No instruction fetched at a legal address takes `pc` past 0x10FE (R21). -/
theorem effect_pc_le (hpc : s.pc.toNat ≤ 0x0FFE) (hentries : ∀ a ∈ s.stack, a.toNat ≤ 0x0FFE) (h : completes i s) :
    (effect i s).pc.toNat ≤ 0x10FE := by
  cases i with
  | jp nnn | call nnn => exact (toNat_zext16 nnn).trans_le (by omega)
  | jpV0 nnn => exact (toNat_indexedTarget nnn _).trans_le (by omega)
  | ret =>
    have htop : s.stack.getLastD 0 ∈ s.stack := by
      rw [List.getLastD_eq_getLast?, List.getLast?_eq_some_getLast h]
      exact List.getLast_mem h
    exact toNat_add_le (hentries _ htop) (by decide)
  | seImm | sneImm | seReg | sneReg | skp | sknp => exact toNat_add_le hpc (toNat_skip_le _)
  | ldRegs => simpa [effect] using toNat_add_le (d := 2) hpc (by decide)
  | _ => exact toNat_add_le hpc (by decide)

/-! ### The stack -/

theorem effect_stack_length (hlen : s.stack.length ≤ 16) (h : completes i s) : (effect i s).stack.length ≤ 16 := by
  cases i with
  | call nnn => exact List.length_append.trans_le h
  | ret => exact (List.dropLast_sublist _).length_le.trans hlen
  | _ => rwa [effect_stack (by simp) (by simp)]

/-- Only the address of a fetched CALL is pushed (R21, R65). -/
theorem effect_stack_entries (hpc : s.pc.toNat ≤ 0x0FFE) (hentries : ∀ a ∈ s.stack, a.toNat ≤ 0x0FFE) :
    ∀ a ∈ (effect i s).stack, a.toNat ≤ 0x0FFE := by
  cases i with
  | call nnn =>
    intro a ha
    rcases List.mem_append.mp ha with ha | ha
    · exact hentries a ha
    · rwa [List.mem_singleton.mp ha]
  | ret => exact fun a ha => hentries a (List.dropLast_subset _ ha)
  | _ => rwa [effect_stack (by simp) (by simp)]

/-! ### Memory -/

/-- A store of at least one byte whose range check passed keeps the canonical form. -/
theorem wf_store (hwf : s.mem.wf) {bs : List Byte} {n : Nat} (hlen : bs.length = n + 1)
    (h : inMemory s.I (n + 1) = true) : (s.mem.writeBytes s.I.toNat bs).wf := by
  have := inMemory_iff.mp h
  exact Memory.wf_writeBytes hwf (by omega)

theorem effect_mem_wf (hwf : s.mem.wf) (h : completes i s) : (effect i s).mem.wf := by
  cases i with
  | ldB x => exact wf_store hwf rfl h
  | stRegs x => exact wf_store hwf (length_regsUpTo x) h
  | _ => rwa [effect_mem (by simp) (by simp)]

/-! ### The step -/

/-- A completed instruction, fetched at a legal address, keeps the invariant. -/
theorem exec_keeps_inv (hinv : s.Inv) (hpc : s.pc.toNat ≤ 0x0FFE) (h : exec i s = .next t) : t.Inv := by
  obtain ⟨-, hlen, hentries, hwf⟩ := hinv
  obtain ⟨hc, rfl⟩ := exec_eq_next.mp h
  exact ⟨effect_pc_le hpc hentries hc, effect_stack_length hlen hc, effect_stack_entries hpc hentries,
    effect_mem_wf hwf hc⟩

/-- The tick changes nothing the invariant speaks of. -/
theorem State.Inv.tick (h : s.Inv) : s.tick.Inv := h

/-- Settles O52: the fetch bounds `pc`, the instruction keeps the invariant from there, and so does the tick. -/
theorem stepKeepsTheInvariant : Obligations.StepKeepsTheInvariant := by
  intro s t hinv hstep
  obtain ⟨i, u, hfetch, hexec, rfl⟩ := step_eq_next.mp hstep
  obtain ⟨hpc, -⟩ := fetch_eq_ok.mp hfetch
  exact (exec_keeps_inv hinv hpc hexec).tick

/-! ### The host's transactions -/

theorem State.Inv.setMem (h : s.Inv) {m : Memory} (hm : m.wf) : (s.setMem m).Inv := by
  obtain ⟨hpc, hlen, hentries, -⟩ := h
  exact ⟨hpc, hlen, hentries, hm⟩

theorem State.Inv.setKeys (h : s.Inv) (keys : Vector Bool 16) : (s.setKeys keys).Inv := h

theorem State.Inv.setKeyProvider (h : s.Inv) (p : KeyProvider) : (s.setKeyProvider p).Inv := h

/-- Settles O51: `pc` is 0x200, the stack is empty and memory lists nothing. -/
theorem resetMeetsTheInvariant : Obligations.ResetMeetsTheInvariant :=
  ⟨by decide, by decide, nofun, Memory.wf_nil⟩

theorem newWith_inv (font : Vector Byte 80) : (State.newWith font).Inv :=
  resetMeetsTheInvariant.setMem (Memory.wf_writeBytes Memory.wf_nil (by simp))

theorem loadProgram_keeps_inv {bytes : List Byte} (hinv : s.Inv) (h : loadProgram bytes s = .ok t) : t.Inv := by
  obtain ⟨hlen, rfl⟩ := loadProgram_eq_ok.mp h
  have ⟨_, _, _, hwf⟩ := hinv
  exact hinv.setMem (Memory.wf_writeBytes hwf (by omega))

theorem setKey_keeps_inv {k : Nat} {pressed : Bool} (hinv : s.Inv) (h : setKey k pressed s = .ok t) : t.Inv := by
  obtain ⟨_, rfl⟩ := setKey_eq_ok.mp h
  exact hinv.setKeys _

/-- Settles O53, by induction on how the state was reached. -/
theorem reachableStatesMeetTheInvariant : Obligations.ReachableStatesMeetTheInvariant := by
  intro s hreach
  induction hreach with
  | new font => exact newWith_inv font
  | load s t bytes _ hload ih => exact loadProgram_keeps_inv ih hload
  | key s t k pressed _ hkey ih => exact setKey_keeps_inv ih hkey
  | provider s p _ ih => exact ih.setKeyProvider p
  | cycle s t _ hstep ih => exact stepKeepsTheInvariant s t ih hstep

end Sys2Proof.Machine
end

section
/-! Memory (20_memory.md): what a store leaves to read and to fetch, and that a canonical memory is determined by its
reads. -/

namespace Sys2Proof.Machine

variable {s t : State}

/-! ### Only the stores write -/

/-- Settles O43: the instructions that write memory are the two excepted. -/
theorem onlyStoresWriteMemory : Obligations.OnlyStoresWriteMemory := by
  intro i s t h hLdB hStRegs a
  obtain ⟨-, rfl⟩ := exec_eq_next.mp h
  rw [effect_mem hLdB hStRegs]

/-! ### The canonical form -/

/-- A listed address reads as its entry. -/
theorem Memory.read_of_mem {m : Memory} (hs : m.Sorted) {c : Host.Cell} (hc : c ∈ m) : m.read c.1 = c.2 := by
  induction m with
  | nil => cases hc
  | cons d rest ih =>
    obtain ⟨hd, hrest⟩ := List.pairwise_cons.mp hs
    rcases List.mem_cons.mp hc with rfl | hc
    · exact if_pos rfl
    · exact (if_neg (hd c hc).ne).trans (ih hrest hc)

/-- What reads as something else than the background is listed. -/
theorem Memory.mem_of_read {m : Memory} {c : Host.Cell} (hread : m.read c.1 = c.2)
    (hne : c.2 ≠ Memory.background c.1) : c ∈ m := by
  induction m with
  | nil => exact absurd hread.symm hne
  | cons d rest ih =>
    simp only [Memory.read] at hread
    split at hread
    next heq => exact List.mem_cons.mpr (.inl (Prod.ext heq.symm hread.symm))
    next => exact List.mem_cons_of_mem _ (ih hread)

/-- A canonical memory lists exactly the addresses that read as something else than the background. -/
theorem Memory.wf.mem_iff_read {m : Memory} (h : m.wf) {c : Host.Cell} :
    c ∈ m ↔ m.read c.1 = c.2 ∧ c.2 ≠ Memory.background c.1 := by
  obtain ⟨hs, hlisted⟩ := h
  exact ⟨fun hc => ⟨Memory.read_of_mem hs hc, (hlisted c hc).2⟩, fun ⟨hread, hne⟩ => Memory.mem_of_read hread hne⟩

/-- Settles O54: the reads decide which cells are listed, and rising addresses decide their order. -/
theorem canonicalMemoriesThatReadAlikeAreEqual : Obligations.CanonicalMemoriesThatReadAlikeAreEqual := by
  intro m m' h h' hread
  have irrefl : Std.Irrefl fun c d : Host.Cell => c.1 < d.1 := ⟨fun c => Nat.lt_irrefl c.1⟩
  have asymm : Std.Antisymm fun c d : Host.Cell => c.1 < d.1 := ⟨fun c d hcd hdc => absurd hdc hcd.asymm⟩
  refine h.sorted.eq_of_mem_iff h'.sorted fun c => ?_
  rw [h.mem_iff_read, h'.mem_iff_read, hread]

/-! ### A store and the next fetch -/

/-- The k-th address of a store reads as the k-th byte stored there, and as before past the last byte. -/
theorem Memory.read_writeBytes_add {m : Memory} (hs : m.Sorted) (a k : Nat) (bs : List Byte) :
    (m.writeBytes a bs).read (a + k) = bs.getD k (m.read (a + k)) := by
  rw [Memory.read_writeBytes hs, if_pos (Nat.le_add_right a k), Nat.add_sub_cancel_left]

theorem Memory.read_writeBytes_outside {m : Memory} (hs : m.Sorted) {a a' : Nat} {bs : List Byte}
    (h : a' < a ∨ a + bs.length ≤ a') : (m.writeBytes a bs).read a' = m.read a' := by
  rw [Memory.read_writeBytes hs]
  split
  · exact List.getD_eq_default _ _ (by omega)
  · rfl

/-- The word fetched where bytes were stored: the first byte high, the second low, each parity alike (R34, R41). -/
theorem fetchWord_of_writeBytes {m : Memory} (hs : m.Sorted) {bs : List Byte}
    (hmem : s.mem = m.writeBytes s.pc.toNat bs) :
    s.fetchWord = joinBytes (bs.getD 0 (m.read s.pc.toNat)) (bs.getD 1 (m.read (s.pc.toNat + 1))) := by
  rw [State.fetchWord, hmem, Memory.read_writeBytes_add hs]
  exact congrArg (joinBytes · _) (Memory.read_writeBytes_add hs _ 0 bs)

/-- A step whose fetch answers an instruction runs it and ticks (R53). -/
theorem step_of_fetch {i : Instr} (h : s.fetch = .ok i) : step s = finishCycle (exec i s) := by
  rw [step_eq_match, h]

/-- Settles O35: the fetch at `pc = I` joins the first two registers stored there. -/
theorem storedCodeIsFetched : Obligations.StoredCodeIsFetched := by
  intro x s t hwf hx hexec hI hpc i hdecode
  obtain ⟨-, rfl⟩ := exec_eq_next.mp hexec
  have hword : (effect (.stRegs x) s).fetchWord = joinBytes s.V[0] s.V[1] := by
    rw [fetchWord_of_writeBytes hwf.sorted (by rw [hpc]; rfl)]
    exact congrArg₂ joinBytes (getD_regsUpTo x 0 _ (Nat.zero_le _)) (getD_regsUpTo x 1 _ hx)
  exact step_of_fetch (fetch_eq_ok.mpr ⟨hpc ▸ hI, hword ▸ hdecode⟩)

/-- The host's word at a legal `pc` is stored there in two bytes, all its sixteen bits kept. -/
theorem withFetchWord_eq_setMem (op : Word) (hpc : s.pc.toNat ≤ 0x0FFE) :
    s.withFetchWord 16 op.toNat = s.setMem (s.mem.writeBytes s.pc.toNat [highByte op, lowByte op]) := by
  have hop : BitVec.ofNat 16 (op.toNat % 2 ^ 16) = op := by
    rw [Nat.mod_eq_of_lt op.isLt, BitVec.ofNat_toNat, BitVec.setWidth_eq]
  rw [State.withFetchWord, hop]
  exact if_pos hpc

/-- Settles O60: the placed word is a store of two bytes at `pc`. -/
theorem placedWordIsFetched : Obligations.PlacedWordIsFetched := by
  intro s op hwf hpc
  simp only [withFetchWord_eq_setMem op hpc]
  refine ⟨?_, fun a ha ha' => ?_, rfl, ?_⟩
  · change (s.setMem _).fetchWord = op
    rw [fetchWord_of_writeBytes hwf.sorted (State.setMem_mem s _)]
    exact joinBytes_high_low op
  · exact Memory.read_writeBytes_outside hwf.sorted (by simp only [List.length_cons, List.length_nil]; omega)
  · exact Memory.wf_writeBytes hwf (by simp only [List.length_cons, List.length_nil]; omega)

end Sys2Proof.Machine
end

section
/-! The encoding (30_encoding.md): decoder and encoder are each other's inverses, the words the decoder rejects, and the
mask/match table. -/

namespace Sys2Proof

open Machine

variable {op w : Word} {i : Instr}

/-! ### The decoder reads back what the encoder wrote -/

/-- The fields of a format are what the format was made of, so the decoder takes the branch of `i` with its operands. -/
theorem decode_encode (h : i.wellFormed = true) : decode (encode i) = .instr i := by
  cases i with
  | cls | ret => rfl
  | drw x y n => simp [encode, decode, Nat.mod_eq_of_lt (of_decide_eq_true h)]
  | skp | sknp => simp [encode, decode, decodeGroupE]
  | ldReg | orReg | andReg | xorReg | addReg | subReg | shr | subnReg | shl => simp [encode, decode, decodeGroup8]
  | ldVxDT | ldVxK | ldDT | ldST | addI | ldF | ldB | stRegs | ldRegs => simp [encode, decode, decodeGroupF]
  | _ => simp [encode, decode]

/-- Settles O2: `decode_encode`, one case for each shape of word. -/
theorem decodeOfEncode : Obligations.DecodeOfEncode := fun _ => decode_encode

/-! ### The encoder writes back what the decoder read -/

theorem formatFA_of_fields {g : BitVec 4} (hg : (fieldG op).toNat = g.toNat) : formatFA g (fieldNNN op) = op := by
  rw [← BitVec.eq_of_toNat_eq hg, formatFA_fields]

theorem formatFXK_of_fields {g : BitVec 4} {k : Byte} (hg : (fieldG op).toNat = g.toNat) (hk : fieldNN op = k) :
    formatFXK g (fieldX op) k = op := by
  rw [← BitVec.eq_of_toNat_eq hg, ← hk, formatFXK_fields]

theorem formatFXY_of_fields {g f : BitVec 4} (hg : (fieldG op).toNat = g.toNat) (hf : fieldN op = f) :
    formatFXY g (fieldX op) (fieldY op) f = op := by
  rw [← BitVec.eq_of_toNat_eq hg, ← hf, formatFXY_fields]

/-- What an answer of the decoder says of the word: it is the instruction's word, or the rejected one (R48). -/
def Decoded.answers (op : Word) : Decoded → Prop
  | .instr i => i.wellFormed = true ∧ encode i = op
  | .invalidOpcode w => w = op

theorem answers_decodeGroup0 : (decodeGroup0 op).answers op := by
  unfold decodeGroup0
  split_ifs with hCls hRet
  · exact ⟨rfl, hCls.symm⟩
  · exact ⟨rfl, hRet.symm⟩
  · rfl

theorem answers_decodeGroup8 (hg : (fieldG op).toNat = 0x8) : (decodeGroup8 op).answers op := by
  unfold decodeGroup8
  split
  case h_10 => rfl
  all_goals
    next hf => exact ⟨rfl, formatFXY_of_fields hg (BitVec.eq_of_toNat_eq hf)⟩

theorem answers_decodeGroupE (hg : (fieldG op).toNat = 0xE) : (decodeGroupE op).answers op := by
  unfold decodeGroupE
  split_ifs with hSkp hSknp
  · exact ⟨rfl, formatFXK_of_fields hg hSkp⟩
  · exact ⟨rfl, formatFXK_of_fields hg hSknp⟩
  · rfl

theorem answers_decodeGroupF (hg : (fieldG op).toNat = 0xF) : (decodeGroupF op).answers op := by
  unfold decodeGroupF
  split_ifs
  case neg => rfl
  all_goals
    next hk => exact ⟨rfl, formatFXK_of_fields hg hk⟩

/-- Groups 5 and 9: one instruction, when the final nibble is 0 (D10). -/
theorem answers_ite {c : Prop} [Decidable c] (h : c → i.wellFormed = true ∧ encode i = op) :
    (if c then .instr i else .invalidOpcode op : Decoded).answers op := by
  split_ifs with hc
  · exact h hc
  · rfl

/-- Every answer of the decoder is about the whole word; case `h_k` below is group `k - 1`. -/
theorem answers_decode : (decode op).answers op := by
  unfold decode
  split
  case h_1 => exact answers_decodeGroup0
  case h_2 hg | h_3 hg | h_11 hg | h_12 hg => exact ⟨rfl, formatFA_of_fields hg⟩
  case h_4 hg | h_5 hg | h_7 hg | h_8 hg | h_13 hg => exact ⟨rfl, formatFXK_of_fields hg rfl⟩
  case h_6 hg | h_10 hg => exact answers_ite fun hn => ⟨rfl, formatFXY_of_fields hg hn⟩
  case h_9 hg => exact answers_decodeGroup8 hg
  case h_14 hg => exact ⟨decide_eq_true (fieldN op).isLt, formatFXY_of_fields hg (by simp)⟩
  case h_15 hg => exact answers_decodeGroupE hg
  case h_16 hg => exact answers_decodeGroupF hg
  case h_17 => rfl

/-- The decoded instruction is well-formed and the word is its own: no bit is dropped (R46, R48). -/
theorem encode_of_decode (h : decode op = .instr i) : i.wellFormed = true ∧ encode i = op := by
  have hanswers := answers_decode (op := op)
  rwa [h] at hanswers

/-- Settles O3: what each arm of the decoder answers is built from the word's own fields. -/
theorem encodeOfDecode : Obligations.EncodeOfDecode := fun _ _ => encode_of_decode

/-! ### The words the decoder rejects (R49) -/

theorem decodeGroup0_eq_invalidOpcode :
    decodeGroup0 op = .invalidOpcode w ↔ w = op ∧ op ≠ 0x00E0 ∧ op ≠ 0x00EE := by
  unfold decodeGroup0
  split_ifs <;> simp_all [eq_comm]

theorem decodeGroup8_eq_invalidOpcode :
    decodeGroup8 op = .invalidOpcode w ↔ w = op ∧ (fieldN op).toNat ∈ [0x8, 0x9, 0xA, 0xB, 0xC, 0xD, 0xF] := by
  have := (fieldN op).isLt
  unfold decodeGroup8
  split
  case h_10 => grind
  all_goals simp_all

theorem decodeGroupE_eq_invalidOpcode :
    decodeGroupE op = .invalidOpcode w ↔ w = op ∧ (fieldNN op).toNat ∉ [0x9E, 0xA1] := by
  unfold decodeGroupE
  split_ifs <;> simp_all [eq_comm, ← BitVec.toNat_inj]

theorem decodeGroupF_eq_invalidOpcode :
    decodeGroupF op = .invalidOpcode w ↔
      w = op ∧ (fieldNN op).toNat ∉ [0x07, 0x0A, 0x15, 0x18, 0x1E, 0x29, 0x33, 0x55, 0x65] := by
  unfold decodeGroupF
  split_ifs <;> simp_all [eq_comm, ← BitVec.toNat_inj]

/-- The list of R49 in the fields the decoder reads. -/
theorem invalidByList_iff : invalidByList op ↔
    ((fieldG op).toNat = 0x0 ∧ op ≠ 0x00E0 ∧ op ≠ 0x00EE) ∨ ((fieldG op).toNat = 0x5 ∧ (fieldN op).toNat ≠ 0) ∨
    ((fieldG op).toNat = 0x8 ∧ (fieldN op).toNat ∈ [0x8, 0x9, 0xA, 0xB, 0xC, 0xD, 0xF]) ∨
    ((fieldG op).toNat = 0x9 ∧ (fieldN op).toNat ≠ 0) ∨ ((fieldG op).toNat = 0xE ∧ (fieldNN op).toNat ∉ [0x9E, 0xA1]) ∨
    ((fieldG op).toNat = 0xF ∧
      (fieldNN op).toNat ∉ [0x07, 0x0A, 0x15, 0x18, 0x1E, 0x29, 0x33, 0x55, 0x65]) := by
  simp only [invalidByList, toNat_fieldG, toNat_fieldN, toNat_fieldNN]

/-- Groups 5 and 9 (D10). -/
theorem ite_eq_invalidOpcode {c : Prop} [Decidable c] :
    (if c then .instr i else .invalidOpcode op) = Decoded.invalidOpcode w ↔ w = op ∧ ¬ c := by
  split_ifs with hc <;> simp [hc, eq_comm]

/-- The decoder rejects the word itself, and exactly the words of the list (R49). -/
theorem decode_eq_invalidOpcode : decode op = .invalidOpcode w ↔ w = op ∧ invalidByList op := by
  rw [invalidByList_iff]
  unfold decode
  split
  case h_17 =>
    have := (fieldG op).isLt
    grind
  all_goals
    next hg =>
      simp [hg, decodeGroup0_eq_invalidOpcode, decodeGroup8_eq_invalidOpcode, decodeGroupE_eq_invalidOpcode,
        decodeGroupF_eq_invalidOpcode, ite_eq_invalidOpcode, ← BitVec.toNat_inj (x := fieldN op)]

/-- Settles O4: the rejected words by groups, and a fetch of one is the cycle's error. -/
theorem invalidWordsAreTheListed : Obligations.InvalidWordsAreTheListed := by
  refine ⟨fun op w => decode_eq_invalidOpcode, fun s hpc hinv => ?_⟩
  have hdecode : decode s.fetchWord = .invalidOpcode s.fetchWord := decode_eq_invalidOpcode.mpr ⟨rfl, hinv⟩
  have hfetch : s.fetch = .error (.invalidOpcode s.fetchWord) := fetch_eq_error.mpr (.inr ⟨hpc, _, hdecode, rfl⟩)
  exact executeCycle_eq_err.mpr ⟨step_eq_fault.mpr (.inl hfetch), rfl⟩

/-! ### The table of R47 -/

/-- The word of an instruction matches the instruction's row (R47). -/
theorem encode_masked (i : Instr) : encode i &&& i.tableRow.mask = i.tableRow.pattern := by
  cases i with
  | cls | ret => rfl
  | jp | call | ldI | jpV0 => exact Laws.TableRow.formatFA_masked _ _
  | seImm | sneImm | ldImm | addImm | rnd => exact Laws.TableRow.formatFXK_masked_group _ _ _
  | drw => exact Laws.TableRow.formatFXY_masked_group _ _ _ _
  | skp | sknp | ldVxDT | ldVxK | ldDT | ldST | addI | ldF | ldB | stRegs | ldRegs =>
    exact Laws.TableRow.formatFXK_masked _ _ _
  | _ => exact Laws.TableRow.formatFXY_masked _ _ _ _

/-- The table holds the rows of the instructions and no other. -/
theorem mem_opcodeTable {row : TableRow} : row ∈ opcodeTable ↔ ∃ i : Instr, i.tableRow = row := by
  constructor
  · intro h
    rcases List.mem_append.mp h with h | h
    all_goals
      obtain ⟨i, -, hi⟩ := List.mem_map.mp h
      exact ⟨i, hi⟩
  · rintro ⟨i, rfl⟩
    cases i <;> simp [opcodeTable, Instr.tableRow]

/-- A field the mask lets through whole is the pattern's. -/
theorem extract_of_masked {m p : Word} {lo n : Nat} (h : op &&& m = p) (hm : m.extractLsb' lo n = BitVec.allOnes n) :
    op.extractLsb' lo n = p.extractLsb' lo n := by
  rw [← h, BitVec.extractLsb'_and, hm, BitVec.and_allOnes]

theorem fieldG_of_masked {m p : Word} (h : op &&& m = p) (hm : fieldG m = BitVec.allOnes 4) : fieldG op = fieldG p :=
  extract_of_masked h hm

theorem fieldN_of_masked {m p : Word} (h : op &&& m = p) (hm : fieldN m = BitVec.allOnes 4) : fieldN op = fieldN p :=
  extract_of_masked h hm

theorem fieldNN_of_masked {m p : Word} (h : op &&& m = p) (hm : fieldNN m = BitVec.allOnes 8) :
    fieldNN op = fieldNN p :=
  extract_of_masked h hm

/-- A word that matches the row of `j` decodes to an instruction of that row: the masked bits decide the decoder's
branch. -/
theorem decode_of_masked (j : Instr) (h : op &&& j.tableRow.mask = j.tableRow.pattern) :
    ∃ i, decode op = .instr i ∧ i.tableRow = j.tableRow := by
  cases j with
  | cls | ret =>
    obtain rfl := (BitVec.and_allOnes (x := op)).symm.trans h
    exact ⟨_, rfl, rfl⟩
  | skp | sknp | ldVxDT | ldVxK | ldDT | ldST | addI | ldF | ldB | stRegs | ldRegs =>
    simp only [Instr.tableRow] at h
    rw [decode, fieldG_of_masked h rfl]
    simp only [decodeGroupE, decodeGroupF, fieldNN_of_masked h rfl]
    exact ⟨_, rfl, rfl⟩
  | jp | call | ldI | jpV0 | seImm | sneImm | ldImm | addImm | rnd | drw =>
    simp only [Instr.tableRow] at h
    rw [decode, fieldG_of_masked h rfl]
    exact ⟨_, rfl, rfl⟩
  | seReg | sneReg | ldReg | orReg | andReg | xorReg | addReg | subReg | shr | subnReg | shl =>
    simp only [Instr.tableRow] at h
    rw [decode, fieldG_of_masked h rfl]
    simp only [decodeGroup8, fieldN_of_masked h rfl]
    exact ⟨_, rfl, rfl⟩

/-- Settles O5: an accepted word is the word of its instruction, which its row accepts; and a row that matches a word
decides the branch the decoder takes. -/
theorem decoderAgreesWithTable : Obligations.DecoderAgreesWithTable := by
  refine ⟨fun op => ⟨?_, ?_⟩, fun op i row hdecode hrow hmatch => ?_⟩
  · rintro ⟨i, hdecode⟩
    obtain ⟨-, rfl⟩ := encode_of_decode hdecode
    exact ⟨i.tableRow, mem_opcodeTable.mpr ⟨i, rfl⟩, encode_masked i⟩
  · rintro ⟨row, hrow, hmatch⟩
    obtain ⟨j, rfl⟩ := mem_opcodeTable.mp hrow
    obtain ⟨i, hdecode, -⟩ := decode_of_masked j hmatch
    exact ⟨i, hdecode⟩
  · obtain ⟨j, rfl⟩ := mem_opcodeTable.mp hrow
    obtain ⟨i', hdecode', hi'⟩ := decode_of_masked j hmatch
    cases hdecode.symm.trans hdecode'
    exact hi'.symm

/-- Settles O1: sixteen closed evaluations of the decoder. -/
theorem specWordsDecode : Obligations.SpecWordsDecode := by
  unfold Obligations.SpecWordsDecode
  decide

end Sys2Proof
end

section
/-! The cycle (40_cycle.md): what `execute_cycle` answers after each way a fetch and an instruction can end, which
instruction suspends, and the new `pc`; and the key update of the host. -/

namespace Sys2Proof.Machine

variable {i : Instr} {s t : State} {b : Bool}

/-! ### The sequence of a cycle -/

/-- Settles O6: the fetch answers the decoded instruction, and what ends the step is the tick. -/
theorem stepRunsDecodedInstruction : Obligations.StepRunsDecodedInstruction := by
  intro s i hpc hdecode
  rw [step_of_fetch (fetch_eq_ok.mpr ⟨hpc, hdecode⟩)]
  cases exec i s with
  | next | fault | refused => rfl

/-- A fetch that fails ends the cycle with its error (R53, R101). -/
theorem executeCycle_of_fetch_error {e : Fault} (h : s.fetch = .error e) : executeCycle s = .err e s :=
  executeCycle_eq_err.mpr ⟨step_eq_fault.mpr (.inl h), rfl⟩

/-- An instruction that fails ends the cycle with its error (R53, R101). -/
theorem executeCycle_of_exec_fault {e : Fault} (hfetch : s.fetch = .ok i) (h : exec i s = .fault e) :
    executeCycle s = .err e s :=
  executeCycle_eq_err.mpr ⟨step_eq_fault.mpr (.inr ⟨i, hfetch, h⟩), rfl⟩

/-- An instruction that completes is followed by the tone and the tick of the state it leaves (R56, R57). -/
theorem executeCycle_of_exec_next (hfetch : s.fetch = .ok i) (h : exec i s = .next t) :
    executeCycle s = .ok t.toneOutput t.tick :=
  executeCycle_eq_ok.mpr ⟨step_eq_next.mpr ⟨i, t, hfetch, h, rfl⟩, rfl⟩

/-- Settles O7, error by error in the order of the cycle, and the tick after an instruction that completes. -/
theorem cycleSequence : Obligations.CycleSequence := by
  intro s
  refine ⟨fun hpc => ?_, fun hpc => ⟨fun hinvalid => ?_, fun i hdecode => ?_⟩⟩
  · exact executeCycle_of_fetch_error (fetch_eq_error.mpr (.inl ⟨hpc, rfl⟩))
  · exact executeCycle_of_fetch_error (fetch_eq_error.mpr (.inr ⟨hpc, _, hinvalid, rfl⟩))
  · have hfetch : s.fetch = .ok i := fetch_eq_ok.mpr ⟨hpc, hdecode⟩
    refine ⟨fun e => executeCycle_of_exec_fault hfetch, fun t h => ?_⟩
    exact ⟨t.tick, executeCycle_of_exec_next hfetch h, toNat_countdown _, toNat_countdown _,
      rfl, rfl, rfl, rfl, rfl, rfl, rfl⟩

/-- A completed cycle is the effect of the fetched instruction, its tone and its tick (R53, R56). -/
theorem effect_of_executeCycle (h : executeCycle s = .ok b t) :
    ∃ i, s.fetch = .ok i ∧ b = (effect i s).toneOutput ∧ t = (effect i s).tick := by
  obtain ⟨hstep, rfl⟩ := executeCycle_eq_ok.mp h
  obtain ⟨i, u, hfetch, hexec, rfl⟩ := step_eq_next.mp hstep
  obtain ⟨-, rfl⟩ := exec_eq_next.mp hexec
  exact ⟨i, hfetch, rfl, rfl⟩

/-- Settles O8: the tick works on the timers the loads left, and `LD Vx, DT` leaves the old `DT` in the register. -/
theorem timerLoadsTickInTheSameCycle : Obligations.TimerLoadsTickInTheSameCycle := by
  intro s t b x hcycle
  obtain ⟨i, hfetch, rfl, rfl⟩ := effect_of_executeCycle hcycle
  have hi {j : Instr} (hj : s.fetch = .ok j) : i = j := Except.ok.inj (hfetch.symm.trans hj)
  refine ⟨fun hj => ?_, fun hj => ?_, fun hj => ?_⟩
  all_goals obtain rfl := hi hj
  · exact ⟨toNat_countdown _, toNat_countdown _, rfl⟩
  · exact ⟨toNat_countdown _, toNat_countdown _, rfl⟩
  · exact ⟨Vector.getElem_set_self _, toNat_countdown _, toNat_countdown _⟩

/-! ### The only suspension -/

/-- A check that stops with an error does not suspend. -/
theorem ite_raise_ne_refused {c : Prop} [Decidable c] {u : State} {e : Fault} {r : Refusal} :
    (if c then .next u else raise e) ≠ .refused r := by
  split <;> exact nofun

/-- Every instruction but the key wait completes or raises an error (R58). -/
theorem exec_ne_refused (h : ∀ x, i ≠ .ldVxK x) (r : Refusal) : exec i s ≠ .refused r := by
  cases i with
  | ldVxK x => exact absurd rfl (h x)
  | ret =>
    simp only [exec, execRet]
    split <;> exact nofun
  | call | ldF | skp | sknp => exact ite_raise_ne_refused
  | drw | ldB | stRegs | ldRegs => exact withRange_ne_refused
  | _ => exact nofun

/-- The key wait suspends exactly when the provider is silent (R95). -/
theorem execLdVxK_eq_refused {x : Reg} {r : Refusal} :
    execLdVxK x s = .refused r ↔ s.keyProvider = .silent ∧ r = .keyWaitSuspended := by
  rw [execLdVxK_eq]
  cases s.keyProvider <;> simp [eq_comm]

/-- Settles O12: the key wait by its provider, and every other instruction has a step or an error. -/
theorem onlySilentKeyWaitSuspends : Obligations.OnlySilentKeyWaitSuspends := by
  intro i s r
  constructor
  · intro h
    obtain ⟨x, rfl⟩ : ∃ x, i = .ldVxK x := by
      by_contra hne
      exact exec_ne_refused (not_exists.mp hne) r h
    exact ⟨⟨x, rfl⟩, execLdVxK_eq_refused.mp h⟩
  · rintro ⟨⟨x, rfl⟩, h⟩
    exact execLdVxK_eq_refused.mpr h

/-! ### The new pc (R55) -/

/-- The ordinary advance from an address that can be fetched or stacked does not wrap. -/
theorem toNat_add_two {a : Addr} (ha : a.toNat ≤ 0x0FFE) : (a + 2).toNat = a.toNat + 2 := by
  bv_omega

/-- Nor does a skip. -/
theorem toNat_pc_skipIf (hpc : s.pc.toNat ≤ 0x0FFE) {c : Bool} {p : Prop} {_ : Decidable p} (h : c = true ↔ p) :
    (s.skipIf c).pc.toNat = s.pc.toNat + if p then 4 else 2 := by
  simp only [State.skipIf_pc, h]
  split <;> bv_omega

/-- A register value below 16 names the key `keyOf` gives, and no other (R93, R94). -/
theorem exists_key_iff {v : Byte} (hv : isHexDigit v = true) {p : Key → Prop} :
    (∃ k : Key, k.val = v.toNat ∧ p k) ↔ p (keyOf v) := by
  have hval : (keyOf v).val = v.toNat := Nat.mod_eq_of_lt (of_decide_eq_true hv)
  constructor
  · rintro ⟨k, hk, hp⟩
    rwa [← Fin.ext (hk.trans hval.symm)]
  · exact fun hp => ⟨_, hval, hp⟩

/-- An instruction that completes takes `pc` to the table's natural number. -/
theorem toNat_effect_pc (hpc : s.pc.toNat ≤ 0x0FFE) (hentries : ∀ a ∈ s.stack, a.toNat ≤ 0x0FFE) (h : completes i s)
    {a : Addr} (ha : s.stack.getLast? = some a ∨ i ≠ .ret) : (effect i s).pc.toNat = newPc i s a := by
  cases i with
  | jp nnn | call nnn => exact toNat_zext16 nnn
  | jpV0 nnn => exact toNat_indexedTarget nnn _
  | ret =>
    have htop : s.stack.getLast? = some a := ha.resolve_right (· rfl)
    have hpop : (effect .ret s).pc = a + 2 := by simp [effect, htop]
    rw [hpop]
    exact toNat_add_two (hentries a (List.mem_of_getLast? htop))
  | seImm | seReg => exact toNat_pc_skipIf hpc beq_iff_eq
  | sneImm | sneReg => exact toNat_pc_skipIf hpc bne_iff_ne
  | skp x => exact toNat_pc_skipIf hpc (exists_key_iff (p := fun k => s.keys[k] = true) h).symm
  | sknp x =>
    exact toNat_pc_skipIf hpc
      ((Bool.not_eq_true' _).to_iff.trans (exists_key_iff (p := fun k => s.keys[k] = false) h).symm)
  | ldRegs x =>
    have hpc' : (effect (.ldRegs x) s).pc = s.pc + 2 := by simp [effect]
    rw [hpc']
    exact toNat_add_two hpc
  | _ => exact toNat_add_two hpc

/-- Settles O48: the table's value, its bound, and the state before the cycle after an error. -/
theorem newPcIsTheTables : Obligations.NewPcIsTheTables := by
  rintro s ⟨-, -, hentries, -⟩ hpc
  refine ⟨fun i t a ha hexec => ?_, fun e u herr => ?_⟩
  · obtain ⟨hc, rfl⟩ := exec_eq_next.mp hexec
    exact ⟨toNat_effect_pc hpc hentries hc ha, effect_pc_le hpc hentries hc⟩
  · obtain ⟨-, rfl⟩ := executeCycle_eq_err.mp herr
    rfl

/-! ### The keypad latch (R59) -/

theorem setKey_of_gt {k : Nat} (hk : k > 15) (pressed : Bool) : setKey k pressed s = .error (.invalidKeyIndex k) :=
  dif_neg (by omega)

/-- Settles O59: the update of one key, the refusal, and the frames of the cycle and of the load. -/
theorem setKeyWritesOneKey : Obligations.SetKeyWritesOneKey := by
  intro k pressed s
  refine ⟨fun hk => ?_, fun hk => setKey_of_gt hk pressed, fun b t hcycle => ?_, fun bytes t hload => ?_⟩
  · refine ⟨_, setKey_eq_ok.mpr ⟨hk, rfl⟩, Vector.getElem_set_self hk, fun j hj => ?_, rfl⟩
    exact Vector.getElem_set_ne hk j.isLt hj.symm
  · obtain ⟨i, -, -, rfl⟩ := effect_of_executeCycle hcycle
    exact effect_keys
  · obtain ⟨-, rfl⟩ := loadProgram_eq_ok.mp hload
    rfl

end Sys2Proof.Machine
end

section
/-! Control transfer (41_control.md): the words of the jumps, the call, the return and the skips, and what each does to
`pc` and the stack. -/

namespace Sys2Proof.Machine

variable {s : State}

/-! ### Words and operands as the statements write them -/

/-- A register's number is its 4-bit field (R46). -/
theorem ofNat_val_eq_regBits (x : Reg) : BitVec.ofNat 4 x.val = regBits x :=
  BitVec.eq_of_toNat_eq (Nat.mod_eq_of_lt x.isLt)

/-- A word that the encoder makes of a well-formed instruction decodes to it (R47, R48). -/
theorem decode_of_encode {i : Instr} {op : Word} (hwf : i.wellFormed = true) (hop : encode i = op) :
    decode op = .instr i :=
  hop ▸ decode_encode hwf

theorem zext16_eq_zeroExtend (nnn : Addr12) : zext16 nnn = nnn.zeroExtend 16 :=
  BitVec.ofNat_toNat 16 nnn

/-- The skip on a condition that the machine's test decides (R55). -/
theorem skipIf_eq {c : Bool} {p : Prop} {_ : Decidable p} (h : c = true ↔ p) :
    s.skipIf c = { s with pc := if p then s.pc + 4 else s.pc + 2 } := by
  rw [State.skipIf, apply_ite (s.pc + ·)]
  simp only [h]
  rfl

/-! ### The call and the return -/

theorem exec_call_of_lt (nnn : Addr12) (h : s.stack.length < 16) :
    exec (.call nnn) s = .next { s with stack := s.stack ++ [s.pc], pc := zext16 nnn } :=
  exec_eq_next.mpr ⟨h, rfl⟩

theorem exec_call_of_full (nnn : Addr12) (h : s.stack.length = 16) : exec (.call nnn) s = .fault .stackOverflow :=
  if_neg h.not_lt

/-- The return pops the last entry (R11, R63). -/
theorem exec_ret_of_append {below : List Addr} {a : Addr} (h : s.stack = below ++ [a]) :
    exec .ret s = .next { s with stack := below, pc := a + 2 } := by
  refine exec_eq_next.mpr ⟨by simp [completes, h], ?_⟩
  rw [effect, h, List.dropLast_concat, List.getLastD_concat]
  rfl

theorem exec_ret_of_nil (h : s.stack = []) : exec .ret s = .fault .stackUnderflow := by
  rw [exec, execRet, h]
  rfl

/-- Settles O17: the entry the call pushed is the one the return pops. -/
theorem returnUndoesCall : Obligations.ReturnUndoesCall := by
  intro nnn s t u hcall hstack
  obtain ⟨-, rfl⟩ := exec_eq_next.mp hcall
  exact exec_ret_of_append hstack

/-- Settles O15: below 16 entries the address goes on top, at 16 the check stops. -/
theorem callPushesItsOwnAddress : Obligations.CallPushesItsOwnAddress := by
  intro nnn s
  rw [← zext16_eq_zeroExtend]
  exact ⟨decode_of_encode rfl rfl, exec_call_of_lt nnn, exec_call_of_full nnn⟩

/-- Settles O16: the two ends a stack can have. -/
theorem returnPopsTheTop : Obligations.ReturnPopsTheTop :=
  ⟨rfl, fun _ => ⟨fun _ _ => exec_ret_of_append, exec_ret_of_nil⟩⟩

/-! ### The jumps -/

/-- Settles O13: the target is the zero-extended operand. -/
theorem jumpSetsPc : Obligations.JumpSetsPc := by
  intro nnn s
  rw [← zext16_eq_zeroExtend]
  exact ⟨decode_of_encode rfl rfl, rfl⟩

/-- Settles O14: the sum of a 12-bit and an 8-bit number fits in 16 bits. -/
theorem indexedJumpAddsV0 : Obligations.IndexedJumpAddsV0 := by
  intro nnn s
  have htarget : (indexedTarget nnn s.V[0]).toNat = nnn.toNat + s.V[0].toNat := toNat_indexedTarget nnn _
  exact ⟨decode_of_encode rfl rfl, indexedTarget nnn s.V[0], rfl, htarget, by omega⟩

/-! ### The skips -/

/-- Settles O18: each skip's test is its condition on `V[x]` and the immediate. -/
theorem skipsOnImmediate : Obligations.SkipsOnImmediate := by
  intro x nn s
  rw [ofNat_val_eq_regBits]
  exact ⟨decode_of_encode rfl rfl, decode_of_encode rfl rfl,
    congrArg Host.Outcome.next (skipIf_eq beq_iff_eq), congrArg Host.Outcome.next (skipIf_eq bne_iff_ne)⟩

/-- Settles O19: each skip's test is its condition on the two registers. -/
theorem skipsOnRegisters : Obligations.SkipsOnRegisters := by
  intro x y s
  rw [ofNat_val_eq_regBits, ofNat_val_eq_regBits]
  exact ⟨decode_of_encode rfl rfl, decode_of_encode rfl rfl,
    congrArg Host.Outcome.next (skipIf_eq beq_iff_eq), congrArg Host.Outcome.next (skipIf_eq bne_iff_ne)⟩

end Sys2Proof.Machine
end

section
/-! ALU and register instructions (42_alu.md): the natural numbers behind each result and flag, and what an instruction
of R71 does, said once for those with a flag and once for those without. -/

namespace Sys2Proof.Machine

variable {i : Instr} {s t : State} {x y : Reg}

/-! ### Words as the statements write them -/

/-- The word `8xyf` is of format FXY (R45). -/
theorem word8_eq_formatFXY (x y : Reg) (f : BitVec 4) : word8 x y f = formatFXY 0x8#4 x y f := by
  rw [word8, ofNat_val_eq_regBits, ofNat_val_eq_regBits, formatFXY]

/-- A word `8xyf` decodes to the instruction whose word the encoder makes of the same fields. -/
theorem decode_word8 {f : BitVec 4} (hwf : i.wellFormed = true) (hop : encode i = formatFXY 0x8#4 x y f) :
    decode (word8 x y f) = .instr i :=
  decode_of_encode hwf (hop.trans (word8_eq_formatFXY x y f).symm)

/-! ### Results and flags as natural numbers -/

theorem toNat_sum8 (a b : Byte) : (sum8 a b).toNat = (a.toNat + b.toNat) % 256 := by
  rw [sum8, BitVec.toNat_ofNat, Nat.mod_mod]

theorem toNat_diff8 (a b : Byte) : (diff8 a b).toNat = (a.toNat + 256 - b.toNat) % 256 := by
  rw [diff8, BitVec.toNat_ofNat, Nat.mod_mod]

theorem toNat_shiftRight1 (a : Byte) : (shiftRight1 a).toNat = a.toNat / 2 := by
  rw [shiftRight1, BitVec.toNat_ushiftRight, Nat.shiftRight_one]

theorem toNat_shiftLeft1 (a : Byte) : (shiftLeft1 a).toNat = a.toNat * 2 % 256 := by
  rw [shiftLeft1, BitVec.toNat_shiftLeft, Nat.shiftLeft_eq, pow_one]

theorem toNat_flagByte (b : Bool) : (flagByte b).toNat = if b then 1 else 0 := by
  cases b <;> rfl

theorem toNat_carryFlag (a b : Byte) : (carryFlag a b).toNat = if a.toNat + b.toNat > 255 then 1 else 0 := by
  simp only [carryFlag, toNat_flagByte, decide_eq_true_eq]

theorem toNat_notBorrowFlag (a b : Byte) : (notBorrowFlag a b).toNat = if a.toNat < b.toNat then 0 else 1 := by
  simp only [notBorrowFlag, toNat_flagByte, decide_eq_true_eq, ite_not]

theorem toNat_shiftedOutRight (a : Byte) : (shiftedOutRight a).toNat = a.toNat % 2 :=
  (BitVec.toNat_and ..).trans (Nat.and_one_is_mod _)

/-- Of eight bits, shifting by seven leaves the highest alone. -/
theorem toNat_shiftedOutLeft (a : Byte) : (shiftedOutLeft a).toNat = a.toNat / 128 := by
  have hbit : (shiftedOutLeft a).toNat = a.toNat / 128 % 2 := by
    rw [← Nat.and_one_is_mod, shiftedOutLeft, BitVec.toNat_and, BitVec.toNat_ushiftRight, Nat.shiftRight_eq_div_pow]
    rfl
  omega

/-! ### Instructions without a flag -/

/-- The result in `V[x]`, `pc` advanced, nothing else (R71). -/
theorem aluResult_eq (x : Reg) (result : Byte) (s : State) :
    aluResult x result s = .next { s with V := s.V.set x result, pc := s.pc + 2 } := rfl

theorem readV_writeV_same (b : Byte) : (s.writeV x b).readV x = b := by
  rw [State.readV_writeV, if_pos rfl]

/-- Settles O20: both loads are results without a flag. -/
theorem loadsAndCopies : Obligations.LoadsAndCopies := by
  intro x y nn s
  rw [ofNat_val_eq_regBits]
  exact ⟨decode_of_encode rfl rfl, decode_word8 rfl rfl, aluResult_eq x nn s, aluResult_eq x s.V[y] s⟩

/-- Settles O21: the sum is a result without a flag. -/
theorem addImmediateWritesNoFlag : Obligations.AddImmediateWritesNoFlag := by
  intro x nn s
  rw [ofNat_val_eq_regBits]
  exact ⟨decode_of_encode rfl rfl, _, rfl,
    (congrArg BitVec.toNat (readV_writeV_same _)).trans (toNat_sum8 s.V[x] nn),
    fun r hr => readV_writeV_of_ne hr _, rfl⟩

/-- Settles O22: each of the three is a result without a flag. -/
theorem logicWritesNoFlag : Obligations.LogicWritesNoFlag := by
  intro x y s
  exact ⟨decode_word8 rfl rfl, decode_word8 rfl rfl, decode_word8 rfl rfl,
    aluResult_eq x (s.V[x] ||| s.V[y]) s, aluResult_eq x (s.V[x] &&& s.V[y]) s, aluResult_eq x (s.V[x] ^^^ s.V[y]) s⟩

/-! ### Instructions with a flag -/

/-- VF ends as the flag, also when `x` is F (R71, D3). -/
theorem readV_writeResultFlag_VF (result flag : Byte) : (s.writeResultFlag x result flag).readV VF = flag :=
  readV_writeV_same flag

theorem readV_writeResultFlag_same (hx : x ≠ VF) (result flag : Byte) :
    (s.writeResultFlag x result flag).readV x = result := by
  rw [State.writeResultFlag, readV_writeV_of_ne hx, readV_writeV_same]

/-- An instruction of R71 with a flag, its result and flag read as natural numbers. -/
theorem resultAndFlag_of_exec {r f : Byte} {result flag : Nat} (hexec : exec i s = aluResultFlag x r f s)
    (hr : r.toNat = result) (hf : f.toNat = flag) : resultAndFlag i s x result flag := by
  refine ⟨_, hexec, ?_, fun hx => ?_, fun q hqx hqVF => ?_, rfl⟩
  · exact (congrArg BitVec.toNat (readV_writeResultFlag_VF r f)).trans hf
  · exact (congrArg BitVec.toNat (readV_writeResultFlag_same hx r f)).trans hr
  · exact readV_writeResultFlag_of_ne (not_or.mpr ⟨hqx, hqVF⟩) r f

/-- Settles O23: the sum and the carry, both of the old operands. -/
theorem addSetsCarry : Obligations.AddSetsCarry := fun _ _ _ =>
  ⟨decode_word8 rfl rfl, resultAndFlag_of_exec rfl (toNat_sum8 _ _) (toNat_carryFlag _ _)⟩

/-- Settles O24: the difference and the not-borrow, both of the old operands. -/
theorem subSetsNotBorrow : Obligations.SubSetsNotBorrow := fun _ _ _ =>
  ⟨decode_word8 rfl rfl, resultAndFlag_of_exec rfl (toNat_diff8 _ _) (toNat_notBorrowFlag _ _)⟩

/-- Settles O25: the difference and the not-borrow with the operands exchanged. -/
theorem subnSetsNotBorrow : Obligations.SubnSetsNotBorrow := fun _ _ _ =>
  ⟨decode_word8 rfl rfl, resultAndFlag_of_exec rfl (toNat_diff8 _ _) (toNat_notBorrowFlag _ _)⟩

/-- Settles O26: the halved value and its old bit 0. -/
theorem shrShiftsOutBit0 : Obligations.ShrShiftsOutBit0 := fun _ _ _ =>
  ⟨decode_word8 rfl rfl, resultAndFlag_of_exec rfl (toNat_shiftRight1 _) (toNat_shiftedOutRight _)⟩

/-- Settles O27: the doubled value and its old bit 7. -/
theorem shlShiftsOutBit7 : Obligations.ShlShiftsOutBit7 := fun _ _ _ =>
  ⟨decode_word8 rfl rfl, resultAndFlag_of_exec rfl (toNat_shiftLeft1 _) (toNat_shiftedOutLeft _)⟩

/-! ### The laws of result and flag together (R83) -/

/-- What a completed instruction with a flag leaves in a destination other than VF, and in VF. -/
theorem resultAndFlag_next {result flag : Nat} (h : resultAndFlag i s x result flag) (hx : x ≠ VF)
    (ht : exec i s = .next t) : t.V[x].toNat = result ∧ t.V[VF].toNat = flag := by
  obtain ⟨u, hu, hflag, hresult, -, -⟩ := h
  obtain rfl : u = t := Host.Outcome.next.inj (hu.symm.trans ht)
  exact ⟨hresult hx, hflag⟩

/-- A sum with its carry loses nothing. -/
theorem sum_add_carry {a b result flag : Nat} (ha : a < 256) (hb : b < 256)
    (h : result = (a + b) % 256 ∧ flag = if a + b > 255 then 1 else 0) : result + 256 * flag = a + b := by
  obtain ⟨rfl, rfl⟩ := h
  split <;> omega

/-- A difference is the wrapped one less the 256 it borrowed. -/
theorem diff_eq_sub_add_borrow {a b result flag : Nat} (ha : a < 256) (hb : b < 256)
    (h : result = (a + 256 - b) % 256 ∧ flag = if a < b then 0 else 1) :
    (result : Int) = a - b + 256 * (1 - flag) := by
  obtain ⟨rfl, rfl⟩ := h
  split <;> omega

/-- Settles O28: each law is arithmetic on the result and the flag that the instruction's own theorem gives. -/
theorem arithmeticLaws : Obligations.ArithmeticLaws := by
  intro x y s t hx a b
  have ha : a < 256 := s.V[x].isLt
  have hb : b < 256 := s.V[y].isLt
  refine ⟨fun h => ?add, fun h => ?sub, fun h => ?subn, fun h => ?shr, fun h => ?shl⟩
  case add => exact sum_add_carry ha hb (resultAndFlag_next (addSetsCarry x y s).2 hx h)
  case sub => exact diff_eq_sub_add_borrow ha hb (resultAndFlag_next (subSetsNotBorrow x y s).2 hx h)
  case subn => exact diff_eq_sub_add_borrow hb ha (resultAndFlag_next (subnSetsNotBorrow x y s).2 hx h)
  case shr =>
    obtain ⟨hresult, hflag⟩ := resultAndFlag_next (shrShiftsOutBit0 x y s).2 hx h
    rw [hresult, hflag]
    exact (Nat.div_add_mod a 2).symm
  case shl =>
    obtain ⟨hresult, hflag⟩ := resultAndFlag_next (shlShiftsOutBit7 x y s).2 hx h
    rw [hresult, hflag]
    omega

end Sys2Proof.Machine
end

section
/-! Index register and memory (43_index_memory.md): the words `Fxkk`, the range check of the accesses at `I`, and what
each instruction leaves in `I`, in memory and in the registers. -/

namespace Sys2Proof.Machine

variable {i : Instr} {s : State} {x : Reg}

/-! ### Words as the statements write them -/

/-- A word `Fxkk` decodes to the instruction whose word the encoder makes of the same fields (R47). -/
theorem decode_wordF {k : Byte} (hwf : i.wellFormed = true) (hop : encode i = formatFXK 0xF#4 x k) :
    decode (0xF#4 ++ BitVec.ofNat 4 x.val ++ k) = .instr i := by
  rw [ofNat_val_eq_regBits]
  exact decode_of_encode hwf hop

/-! ### The index register -/

theorem toNat_indexSum (a : Addr) (v : Byte) : (indexSum a v).toNat = (a.toNat + v.toNat) % 65536 := by
  rw [indexSum, BitVec.toNat_ofNat, Nat.mod_mod]

/-- The glyphs start at address 0, and five times a byte fits in 16 bits. -/
theorem toNat_glyphAddress (v : Byte) : (glyphAddress v).toNat = v.toNat * 5 := by
  change (0 + v.toNat * 5) % 2 ^ 16 = v.toNat * 5
  omega

theorem isHexDigit_iff {v : Byte} : isHexDigit v = true ↔ v.toNat ≤ 15 :=
  decide_eq_true_iff.trans Nat.lt_succ_iff

theorem exec_ldF_of_le (h : s.V[x].toNat ≤ 15) :
    exec (.ldF x) s = .next { s with I := glyphAddress s.V[x], pc := s.pc + 2 } :=
  exec_eq_next.mpr ⟨isHexDigit_iff.mpr h, rfl⟩

theorem exec_ldF_of_gt (h : s.V[x].toNat > 15) : exec (.ldF x) s = .fault (.glyphOutOfRange s.V[x]) :=
  if_neg (isHexDigit_iff.not.mpr h.not_ge)

/-- Settles O29: `I` is the zero-extended operand, or the sum narrowed once. -/
theorem indexLoadAndAdd : Obligations.IndexLoadAndAdd := by
  intro nnn x s
  rw [← zext16_eq_zeroExtend]
  exact ⟨decode_of_encode rfl rfl, decode_wordF rfl rfl, rfl, _, rfl, toNat_indexSum s.I s.V[x]⟩

/-- Settles O30: the check on the digit, passed and failed. -/
theorem glyphAddressIsFiveTimesDigit : Obligations.GlyphAddressIsFiveTimesDigit := fun _ _ =>
  ⟨decode_wordF rfl rfl, fun h => ⟨_, exec_ldF_of_le h, toNat_glyphAddress _⟩, exec_ldF_of_gt⟩

/-! ### The range check on `I` (20_memory.md R33) -/

/-- An access of at least one byte lies in memory exactly when its last byte does. -/
theorem inMemory_succ_iff {a : Addr} {n : Nat} : inMemory a (n + 1) = true ↔ a.toNat + n ≤ 0xFFF := by
  rw [inMemory_iff]
  omega

/-- An access whose last byte lies past 0xFFF is the error with the whole length. -/
theorem withRange_of_gt {n : Nat} {u : State} (h : s.I.toNat + n > 0xFFF) :
    s.withRange (n + 1) u = .fault (.memoryOutOfRange s.I (n + 1)) :=
  withRange_eq_fault.mpr ⟨Bool.eq_false_iff.mpr (inMemory_succ_iff.not.mpr h.not_ge), rfl⟩

/-! ### The two stores -/

/-- The three bytes stored are the decimal digits, each of which fits in a byte (R88). -/
theorem read_effect_ldB (hwf : s.mem.wf) :
    ((effect (.ldB x) s).mem.read s.I.toNat).toNat = s.V[x].toNat / 100 ∧
      ((effect (.ldB x) s).mem.read (s.I.toNat + 1)).toNat = s.V[x].toNat / 10 % 10 ∧
      ((effect (.ldB x) s).mem.read (s.I.toNat + 2)).toNat = s.V[x].toNat % 10 := by
  have hread (k : Nat) := Memory.read_writeBytes_add hwf.sorted s.I.toNat k (bcdDigits s.V[x])
  refine ⟨(congrArg BitVec.toNat (hread 0)).trans (Nat.mod_eq_of_lt ?_),
    (congrArg BitVec.toNat (hread 1)).trans (Nat.mod_eq_of_lt ?_),
    (congrArg BitVec.toNat (hread 2)).trans (Nat.mod_eq_of_lt ?_)⟩ <;> omega

/-- Settles O31: the three bytes stored are the digits, and a read outside them is as before. -/
theorem bcdStoresThreeDigits : Obligations.BcdStoresThreeDigits := by
  intro x s hwf
  refine ⟨decode_wordF rfl rfl, fun hI => ?_, withRange_of_gt⟩
  obtain ⟨hundreds, tens, ones⟩ := read_effect_ldB (x := x) hwf
  refine ⟨_, exec_eq_next.mpr ⟨inMemory_succ_iff.mpr hI, rfl⟩, hundreds, tens, ones, fun a ha => ?_, rfl⟩
  exact Memory.read_writeBytes_outside hwf.sorted ha

/-- The dump leaves each register up to `Vx` at its own address (R89). -/
theorem read_effect_stRegs (hwf : s.mem.wf) {r : Reg} (hr : r ≤ x) :
    (effect (.stRegs x) s).mem.read (s.I.toNat + r.val) = s.V[r] :=
  (Memory.read_writeBytes_add hwf.sorted _ _ _).trans (getD_regsUpTo x r _ hr)

/-- Settles O32: the bytes stored are the registers, one for each up to `Vx`. -/
theorem registerDumpStoresUpToX : Obligations.RegisterDumpStoresUpToX := by
  intro x s hwf
  refine ⟨decode_wordF rfl rfl, fun hI => ?_, withRange_of_gt⟩
  refine ⟨_, exec_eq_next.mpr ⟨inMemory_succ_iff.mpr hI, rfl⟩, fun r => read_effect_stRegs hwf, fun a ha => ?_, rfl⟩
  exact Memory.read_writeBytes_outside hwf.sorted (by rw [length_regsUpTo]; omega)

/-! ### The load -/

/-- The load leaves in each register up to `Vx` the byte at its address, and the registers above as they were (R90). -/
theorem getElem_effect_ldRegs (r : Reg) :
    (effect (.ldRegs x) s).V[r] = if r ≤ x then s.mem.read (s.I.toNat + r.val) else s.V[r] :=
  State.readV_loadRegs s s.I.toNat x r

/-- The load changes the registers and `pc` alone (R90). -/
theorem effect_ldRegs_eq : effect (.ldRegs x) s = { s with V := (effect (.ldRegs x) s).V, pc := s.pc + 2 } := by
  simp only [effect, State.loadRegs, State.advance, State.setPc]

/-- Settles O33: the registers are the load's, the rest of the state is carried through. -/
theorem registerLoadFillsUpToX : Obligations.RegisterLoadFillsUpToX := by
  intro x s
  refine ⟨decode_wordF rfl rfl, fun hI => ?_, withRange_of_gt⟩
  refine ⟨_, exec_eq_next.mpr ⟨inMemory_succ_iff.mpr hI, rfl⟩, fun r hr => ?_, fun r hr => ?_, effect_ldRegs_eq⟩
  · rw [getElem_effect_ldRegs, if_pos hr]
  · rw [getElem_effect_ldRegs, if_neg hr.not_ge]

/-- Settles O34: the load reads the addresses the dump wrote. -/
theorem loadRestoresDump : Obligations.LoadRestoresDump := by
  intro x s t u v hwf hdump hmem hI hload r
  obtain ⟨-, rfl⟩ := exec_eq_next.mp hdump
  obtain ⟨-, rfl⟩ := exec_eq_next.mp hload
  rw [getElem_effect_ldRegs, hmem, hI]
  split
  next hr => exact read_effect_stRegs hwf hr
  next => rfl

end Sys2Proof.Machine
end

section
/-! Display (44_display.md): the sprite of a `DRW` as bits on the grid, the two sprite loops read through them, and what
a `CLS`, a `DRW` and a second `DRW` leave. -/

namespace Sys2Proof.Machine

variable {s : State} {x y : Reg} {n : Nat}

/-! ### Clearing -/

theorem getElem_clearDisplay (c : Fin 64) (r : Fin 32) : clearDisplay[c][r] = false := by
  simp [clearDisplay]

/-- Settles O36: the display is replaced by the clear one. -/
theorem clsClearsEveryPixel : Obligations.ClsClearsEveryPixel :=
  ⟨decode_of_encode rfl rfl, fun _ => ⟨_, rfl, getElem_clearDisplay, rfl⟩⟩

/-! ### The sprite on the grid -/

/-- Two displays with the same pixels are the same display. -/
theorem display_ext {d d' : Display} (h : ∀ (c : Fin 64) (r : Fin 32), d[c][r] = d'[c][r]) : d = d' :=
  Vector.ext fun c hc => Vector.ext fun r hr => h ⟨c, hc⟩ ⟨r, hr⟩

/-- A pixel is lit only inside the grid. -/
theorem pixelAt_eq_true {d : Display} {px py : Nat} :
    pixelAt d px py = true ↔ ∃ (c : Fin 64) (r : Fin 32), c.val = px ∧ r.val = py ∧ d[c][r] = true := by
  constructor
  · intro h
    rw [pixelAt] at h
    split at h
    next hin =>
      obtain ⟨hc, hr⟩ := hin
      exact ⟨⟨px, hc⟩, ⟨py, hr⟩, rfl, rfl, h⟩
    next => exact absurd h Bool.false_ne_true
  · rintro ⟨c, r, rfl, rfl, h⟩
    exact (pixelAt_eq d c r).trans h

/-- The set bits of a sprite, by row `k` and bit `j` of the row's byte, bit 7 leftmost (R13, R92). -/
theorem spriteBit_eq_true {cx cy c r : Nat} :
    spriteBit s cx cy n c r = true ↔ ∃ k j, k < n ∧ j < 8 ∧ (s.mem.read (s.I.toNat + k)).getLsbD j = true ∧
      c = cx + (7 - j) ∧ r = cy + k := by
  rw [spriteBit, Bool.and_eq_true, decide_eq_true_iff]
  constructor
  · rintro ⟨hplace, hbit⟩
    exact ⟨r - cy, 7 - (c - cx), by omega, by omega, hbit, by omega, by omega⟩
  · rintro ⟨k, j, hk, hj, hbit, rfl, rfl⟩
    refine ⟨by omega, ?_⟩
    rwa [show cy + k - cy = k by omega, show 7 - (cx + (7 - j) - cx) = j by omega]

/-- The sprite of `DRW Vx, Vy, n`, at the coordinates the registers hold before it. -/
def State.drwBit (s : State) (x y : Reg) (n c r : Nat) : Bool :=
  spriteBit s (s.readV x).toNat (s.readV y).toNat n c r

/-- A `DRW` inverts exactly the pixels where its sprite has a set bit. -/
theorem getElem_drawn (c : Fin 64) (r : Fin 32) :
    (s.drawn x y n).1[c][r] = (s.disp[c][r] ^^ s.drwBit x y n c.val r.val) := by
  rw [← pixelAt_eq, State.drawn, pixelAt_drawRows, pixelAt_eq, Memory.length_readBytes, State.drwBit, spriteBit]
  congr 1
  by_cases hrow : (s.readV y).toNat ≤ r.val ∧ r.val < (s.readV y).toNat + n
  · rw [getD_readBytes _ _ _ _ (by omega)]
    congr 1
    rw [decide_eq_decide]
    omega
  · rw [decide_eq_false (by omega), decide_eq_false (by omega), Bool.false_and, Bool.false_and]

/-- A `DRW` collides exactly when a lit pixel meets a set bit of its sprite. -/
theorem collision_drawn :
    (s.drawn x y n).2 = true ↔
      ∃ (c : Fin 64) (r : Fin 32), s.disp[c][r] = true ∧ s.drwBit x y n c.val r.val = true := by
  simp only [State.drawn, collision_drawRows, Memory.length_readBytes, Bool.false_eq_true, false_or, State.drwBit,
    spriteBit_eq_true, pixelAt_eq_true]
  constructor
  · rintro ⟨k, j, hk, hj, hbit, c, r, hc, hr, hlit⟩
    rw [getD_readBytes _ _ _ _ hk] at hbit
    exact ⟨c, r, hlit, k, j, hk, hj, hbit, hc, hr⟩
  · rintro ⟨c, r, hlit, k, j, hk, hj, hbit, hc, hr⟩
    rw [← getD_readBytes _ _ _ _ hk] at hbit
    exact ⟨k, j, hk, hj, hbit, c, r, hc, hr, hlit⟩

/-! ### One draw -/

theorem collisionFlag_eq_one {b : Bool} : collisionFlag b = 1 ↔ b = true := by
  cases b <;> decide

theorem collisionFlag_eq_zero {b : Bool} : collisionFlag b = 0 ↔ b = false := by
  cases b <;> decide

theorem getElem_effect_drw_disp (c : Fin 64) (r : Fin 32) :
    (effect (.drw x y n) s).disp[c][r] = (s.disp[c][r] ^^ s.drwBit x y n c.val r.val) :=
  getElem_drawn c r

/-- VF ends as the collision, also when `x` or `y` is F (R92, D2). -/
theorem getElem_effect_drw_VF : (effect (.drw x y n) s).V[VF] = collisionFlag (s.drawn x y n).2 :=
  readV_writeV_same _

/-- VF is 1 exactly when a lit pixel met a set bit. -/
theorem effect_drw_VF_eq_one :
    (effect (.drw x y n) s).V[VF] = 1 ↔
      ∃ (c : Fin 64) (r : Fin 32), s.disp[c][r] = true ∧ s.drwBit x y n c.val r.val = true := by
  rw [getElem_effect_drw_VF, collisionFlag_eq_one, collision_drawn]

/-- VF is 0 exactly when no lit pixel met a set bit. -/
theorem effect_drw_VF_eq_zero :
    (effect (.drw x y n) s).V[VF] = 0 ↔
      ∀ (c : Fin 64) (r : Fin 32), s.disp[c][r] = true → s.drwBit x y n c.val r.val = false := by
  rw [getElem_effect_drw_VF, collisionFlag_eq_zero, ← Bool.not_eq_true, collision_drawn]
  simp only [not_exists, not_and, Bool.not_eq_true]

theorem readV_effect_drw_of_ne {r : Reg} (hr : r ≠ VF) : (effect (.drw x y n) s).readV r = s.readV r :=
  readV_effect hr

theorem decode_drw (x y : Reg) (n : BitVec 4) :
    decode (0xD#4 ++ BitVec.ofNat 4 x.val ++ BitVec.ofNat 4 y.val ++ n) = .instr (.drw x y n.toNat) := by
  rw [ofNat_val_eq_regBits, ofNat_val_eq_regBits]
  refine decode_of_encode (decide_eq_true n.isLt) ?_
  rw [encode, BitVec.ofNat_toNat, BitVec.setWidth_eq, formatFXY]

/-- Settles O37: the pixels, the flag and the frame of a draw inside memory, and the range check failed. -/
theorem drawXorsSpriteAndSetsCollision : Obligations.DrawXorsSpriteAndSetsCollision := by
  intro x y n s
  refine ⟨decode_drw x y n, fun hrange => ?_, fun hn hrange => ?_⟩
  · have hin : inMemory s.I n.toNat = true := by
      rw [inMemory_iff]
      rcases hrange with rfl | hrange
      · exact .inl rfl
      · omega
    exact ⟨_, exec_eq_next.mpr ⟨hin, rfl⟩, getElem_effect_drw_disp, effect_drw_VF_eq_one.mpr,
      effect_drw_VF_eq_zero.mpr, fun r => readV_effect_drw_of_ne, rfl⟩
  · obtain ⟨m, hm⟩ := Nat.exists_eq_succ_of_ne_zero (BitVec.toNat_ne_iff_ne.mpr hn)
    rw [hm] at hrange ⊢
    exact withRange_of_gt hrange

/-! ### A second draw -/

/-- A draw leaves its own sprite as it was: memory, `I` and, off VF, the coordinates. -/
theorem drwBit_effect_drw (hx : x ≠ VF) (hy : y ≠ VF) (c r : Nat) :
    (effect (.drw x y n) s).drwBit x y n c r = s.drwBit x y n c r := by
  rw [State.drwBit, readV_effect_drw_of_ne hx, readV_effect_drw_of_ne hy]
  rfl

/-- Settles O38: the second draw inverts the same pixels, and the lit ones among them are those the first lit. -/
theorem drawTwiceRestores : Obligations.DrawTwiceRestores := by
  intro x y n s t hx hy _ h
  obtain ⟨hin, rfl⟩ := exec_eq_next.mp h
  refine ⟨_, exec_eq_next.mpr ⟨hin, rfl⟩, display_ext fun c r => ?_, ?_⟩
  · rw [getElem_effect_drw_disp, drwBit_effect_drw hx hy, getElem_effect_drw_disp, Bool.xor_assoc, Bool.xor_self,
      Bool.xor_false]
  · rw [effect_drw_VF_eq_one]
    refine exists₂_congr fun c r => ?_
    rw [drwBit_effect_drw hx hy, getElem_effect_drw_disp]
    cases s.disp[c][r] <;> simp

end Sys2Proof.Machine
end

section
/-! Keypad, timers and random (45_keypad_timers_random.md): the key skips by the key `V[x]` names, the key wait by its
provider, and what the timer moves and the random byte leave in their one destination. -/

namespace Sys2Proof.Machine

variable {s : State} {x : Reg}

/-! ### The key skips -/

theorem isHexDigit_of_toNat_eq {v : Byte} {k : Key} (h : v.toNat = k.val) : isHexDigit v = true :=
  decide_eq_true (h ▸ k.isLt)

/-- A register that holds a key's number names that key. -/
theorem keyOf_of_toNat_eq {v : Byte} {k : Key} (h : v.toNat = k.val) : keyOf v = k :=
  (exists_key_iff (p := (· = k)) (isHexDigit_of_toNat_eq h)).mp ⟨k, h.symm, rfl⟩

/-- `SKP` skips while the key is held (R93). -/
theorem exec_skp_of_key {k : Key} (h : s.V[x].toNat = k.val) :
    exec (.skp x) s = .next { s with pc := if s.keys[k] = true then s.pc + 4 else s.pc + 2 } := by
  obtain rfl : keyOf (s.readV x) = k := keyOf_of_toNat_eq h
  exact exec_eq_next.mpr ⟨isHexDigit_of_toNat_eq h, skipIf_eq Iff.rfl⟩

/-- `SKNP` skips while the key is not held (R94). -/
theorem exec_sknp_of_key {k : Key} (h : s.V[x].toNat = k.val) :
    exec (.sknp x) s = .next { s with pc := if s.keys[k] = true then s.pc + 2 else s.pc + 4 } := by
  obtain rfl : keyOf (s.readV x) = k := keyOf_of_toNat_eq h
  rw [← ite_not]
  exact exec_eq_next.mpr ⟨isHexDigit_of_toNat_eq h, skipIf_eq Bool.not_iff_not⟩

/-- Above 15 no key is named (D15). -/
theorem exec_skp_of_gt (h : s.V[x].toNat > 15) : exec (.skp x) s = .fault (.keyOperandOutOfRange s.V[x]) :=
  if_neg (isHexDigit_iff.not.mpr h.not_ge)

theorem exec_sknp_of_gt (h : s.V[x].toNat > 15) : exec (.sknp x) s = .fault (.keyOperandOutOfRange s.V[x]) :=
  if_neg (isHexDigit_iff.not.mpr h.not_ge)

/-- Settles O39: the register names one key, whose latch decides each skip, or none and the check stops. -/
theorem keySkips : Obligations.KeySkips := by
  intro x s
  rw [ofNat_val_eq_regBits]
  exact ⟨decode_of_encode rfl rfl, decode_of_encode rfl rfl, fun _ h => ⟨exec_skp_of_key h, exec_sknp_of_key h⟩,
    fun h => ⟨exec_skp_of_gt h, exec_sknp_of_gt h⟩⟩

/-! ### The key wait -/

/-- A provider that answers completes the wait (R95). -/
theorem exec_ldVxK_of_answers (h : s.keyProvider = .answers) :
    exec (.ldVxK x) s = .next { s with
      V := s.V.set x (BitVec.ofNat 8 (Config.keyAnswer s.keyWaits).val)
      keyWaits := s.keyWaits + 1
      pc := s.pc + 2 } :=
  exec_eq_next.mpr ⟨h, rfl⟩

theorem exec_ldVxK_of_silent (h : s.keyProvider = .silent) : exec (.ldVxK x) s = .refused .keyWaitSuspended :=
  execLdVxK_eq_refused.mpr ⟨h, rfl⟩

/-- A refused instruction leaves its cycle without an end (R57, R95). -/
theorem executeCycle_of_exec_refused {i : Instr} {r : Refusal} (hfetch : s.fetch = .ok i)
    (h : exec i s = .refused r) : executeCycle s = .suspended := by
  simp only [executeCycle, fetchAndExec, hfetch, h]

/-- Settles O40: the key wait by its provider. -/
theorem keyWaitStoresTheAnswer : Obligations.KeyWaitStoresTheAnswer := fun _ _ =>
  ⟨decode_wordF rfl rfl, fun h => ⟨_, rfl, exec_ldVxK_of_answers h⟩,
    fun h => ⟨exec_ldVxK_of_silent h, fun hfetch => executeCycle_of_exec_refused hfetch (exec_ldVxK_of_silent h)⟩⟩

/-! ### The timer moves and the random byte -/

/-- Settles O41: each of the three moves a byte without a check. -/
theorem timerMoves : Obligations.TimerMoves := fun _ _ =>
  ⟨decode_wordF rfl rfl, decode_wordF rfl rfl, decode_wordF rfl rfl, rfl, rfl, rfl⟩

/-- A masked byte has no bit outside its mask. -/
theorem and_and_not_mask (nn r : Byte) : (nn &&& r) &&& ~~~nn = 0 := by
  rw [BitVec.and_comm nn r, BitVec.and_assoc, BitVec.and_not_self]
  exact BitVec.and_zero

/-- Settles O42: the byte is the environment's next draw, whatever it is, and the mask alone clears its bits. -/
theorem randomByteIsMasked : Obligations.RandomByteIsMasked := by
  intro x nn s
  rw [ofNat_val_eq_regBits]
  exact ⟨decode_of_encode rfl rfl, _, rfl, execRnd_eq x nn, and_and_not_mask nn _⟩

end Sys2Proof.Machine
end

section
/-! The errors of a cycle: which check raises which, and that one repeats (60_exceptions.md R101 to R103). -/

namespace Sys2Proof.Machine

variable {i : Instr} {s : State} {e : Fault}

/-! ### The error of an instruction's own check -/

/-- A check before a completed result raises its error exactly when it fails. -/
theorem ite_raise_eq_fault {c : Prop} [Decidable c] {u : State} {e' : Fault} :
    (if c then .next u else raise e') = .fault e ↔ ¬ c ∧ e = e' := by
  by_cases h : c <;> simp [raise, h, eq_comm]

/-- An access leaves memory exactly when it has a byte and its last one lies past 0xFFF (20_memory.md R33). -/
theorem inMemory_eq_false_iff {a : Addr} {n : Nat} : inMemory a n = false ↔ n > 0 ∧ a.toNat + n - 1 > 0xFFF := by
  rw [Bool.eq_false_iff, ne_eq, inMemory_iff]
  omega

/-- The range check of an access of `n + 1` bytes fails exactly when its last byte lies past 0xFFF. -/
theorem withRange_succ_eq_fault {n : Nat} {u : State} :
    s.withRange (n + 1) u = .fault e ↔ s.I.toNat + n > 0xFFF ∧ e = .memoryOutOfRange s.I (n + 1) := by
  rw [withRange_eq_fault, Bool.eq_false_iff, ne_eq, inMemory_succ_iff, Nat.not_le]

theorem exec_ret_eq_fault : exec .ret s = .fault e ↔ s.stack = [] ∧ e = .stackUnderflow := by
  by_cases hnil : s.stack = []
  · simp [exec_ret_of_nil hnil, hnil, eq_comm]
  · have hnext : exec .ret s = .next (effect .ret s) := exec_eq_next.mpr ⟨hnil, rfl⟩
    simp [hnext, hnil]

/-- A register's digit check, failed (R87, R93, R94). -/
theorem ite_isHexDigit_eq_fault {x : Reg} {u : State} {e' : Fault} :
    (if isHexDigit (s.readV x) = true then .next u else raise e') = .fault e ↔ s.V[x].toNat > 15 ∧ e = e' := by
  rw [ite_raise_eq_fault, isHexDigit_iff, Nat.not_le]
  rfl

/-- An instruction raises exactly the error of its own check; a stack of at most 16 entries is full at 16 (R23, R103). -/
theorem exec_eq_fault (hlen : s.stack.length ≤ 16) : exec i s = .fault e ↔ ownError i s e := by
  cases i with
  | ret => exact exec_ret_eq_fault
  | call nnn =>
    have hfull : ¬ s.stack.length < 16 ↔ s.stack.length = 16 := by omega
    exact ite_raise_eq_fault.trans (and_congr_left' hfull)
  | ldF | skp | sknp => exact ite_isHexDigit_eq_fault
  | drw x y n => exact withRange_eq_fault.trans ((and_congr_left' inMemory_eq_false_iff).trans and_assoc)
  | ldB | stRegs | ldRegs => exact withRange_succ_eq_fault
  | ldVxK x =>
    show execLdVxK x s = .fault e ↔ False
    rw [execLdVxK_eq]
    split <;> simp
  | _ => exact iff_of_false nofun id

/-! ### The errors of a cycle -/

/-- The error of an invalid word names the word fetched (R48, R49). -/
theorem exists_invalidOpcode_iff {op : Word} :
    (∃ w, decode op = .invalidOpcode w ∧ e = .invalidOpcode w) ↔
      decode op = .invalidOpcode op ∧ e = .invalidOpcode op := by
  refine ⟨?_, fun h => ⟨op, h⟩⟩
  rintro ⟨w, hdecode, rfl⟩
  obtain ⟨rfl, -⟩ := decode_eq_invalidOpcode.mp hdecode
  exact ⟨hdecode, rfl⟩

/-- Settles O10: the fetch's two errors in their order, then the decoded instruction's own. -/
theorem cycleErrorsExactly : Obligations.CycleErrorsExactly := by
  intro s e hlen
  rw [step_eq_fault, fetch_eq_error, exists_invalidOpcode_iff]
  simp only [fetch_eq_ok, exec_eq_fault hlen]
  -- an invalid word and a decoded instruction share the bound on `pc`
  simp only [or_assoc, and_assoc, exists_and_left, ← and_or_left]
  rfl

/-! ### The same error again -/

/-- The key skips read the latch only after their check, and the others not at all, so no error depends on it (R61). -/
theorem exec_setKeys_of_fault (h : exec i s = .fault e) (keys : Vector Bool 16) :
    exec i (s.setKeys keys) = .fault e := by
  cases i with
  | skp | sknp => exact ite_raise_eq_fault.mpr (ite_raise_eq_fault.mp h)
  | _ => rw [exec_setKeys (by simp) (by simp), h]; rfl

/-- A step's error outlives a key update: the fetch does not read the latch, and no instruction's error does. -/
theorem step_setKeys_of_fault (h : step s = .fault e) (keys : Vector Bool 16) : step (s.setKeys keys) = .fault e := by
  obtain hfetch | ⟨i, hfetch, hexec⟩ := step_eq_fault.mp h
  · exact step_eq_fault.mpr (.inl hfetch)
  · exact step_eq_fault.mpr (.inr ⟨i, hfetch, exec_setKeys_of_fault hexec keys⟩)

/-- Settles O11: the error leaves the state as it was, and a key update changes only the latch. -/
theorem errorRepeats : Obligations.ErrorRepeats := by
  intro s s' e h
  obtain ⟨hstep, rfl⟩ := executeCycle_eq_err.mp h
  refine ⟨rfl, h, fun k pressed t hkey => ?_⟩
  obtain ⟨hk, rfl⟩ := setKey_eq_ok.mp hkey
  exact executeCycle_eq_err.mpr ⟨step_setKeys_of_fault hstep _, rfl⟩

end Sys2Proof.Machine
end

section
/-! Reset and load (70_reset_and_hazards.md): memory after `new()` with any font, the cycle that finds no program there,
and what a load writes. -/

namespace Sys2Proof.Machine

variable {s : State} {bytes : List Byte}

/-! ### Memory after `new()` -/

theorem newWith_mem_wf (font : Vector Byte 80) : (State.newWith font).mem.wf := by
  obtain ⟨-, -, -, hwf⟩ := newWith_inv font
  exact hwf

/-- The font from address 0 on, and past its end what nothing has written. -/
theorem read_newWith (font : Vector Byte 80) (a : Nat) :
    (State.newWith font).mem.read a = font.toList.getD a (Memory.background a) := by
  have hread := Memory.read_writeBytes_add Memory.wf_nil.sorted Config.fontBase a font.toList
  rwa [Nat.zero_add] at hread

theorem read_newWith_of_lt (font : Vector Byte 80) {a : Nat} (ha : a < 80) :
    (State.newWith font).mem.read a = font[a] := by
  rw [read_newWith, List.getD_eq_getElem _ _ (by simpa using ha), Vector.getElem_toList]

/-- Past the font's 80 bytes nothing was written, and what nothing has written is zero there. -/
theorem read_newWith_of_le (font : Vector Byte 80) {a : Nat} (ha : 80 ≤ a) : (State.newWith font).mem.read a = 0 := by
  rw [read_newWith, List.getD_eq_default _ _ (by simpa using ha)]
  exact List.getD_eq_default _ _ ha

/-- Settles O55: memory by its reads; a register, a pixel or a key is an entry of a constant vector. -/
theorem newStateIsAsStated : Obligations.NewStateIsAsStated := fun font =>
  ⟨fun a => read_newWith_of_lt font a.isLt, fun _ ha _ => read_newWith_of_le font ha,
    fun r => Vector.getElem_replicate r.isLt, rfl, rfl, rfl, rfl, rfl,
    fun c r => (congrArg (·[r]) (Vector.getElem_replicate c.isLt)).trans (Vector.getElem_replicate r.isLt),
    fun k => Vector.getElem_replicate k.isLt⟩

/-- The default font is what unlisted addresses read as, so writing it lists nothing. -/
theorem newWith_defaultFont (h : Config.font.toArray.size = 80) :
    State.newWith ⟨Config.font.toArray, h⟩ = State.reset := by
  have hmem : (State.newWith ⟨Config.font.toArray, h⟩).mem = [] := by
    refine canonicalMemoriesThatReadAlikeAreEqual _ _ (newWith_mem_wf _) Memory.wf_nil fun a => ?_
    rw [read_newWith, Memory.read_nil]
    rcases Nat.lt_or_ge a Config.font.length with ha | ha
    · exact (List.getD_eq_getElem _ _ ha).trans (List.getD_eq_getElem _ _ ha).symm
    · exact List.getD_eq_default _ _ ha
  exact congrArg State.reset.setMem hmem

/-- Settles O56: the two states are one, and the glyphs are read off the background. -/
theorem resetHoldsTheDefaultFont : Obligations.ResetHoldsTheDefaultFont :=
  ⟨newWith_defaultFont, by decide, by decide, by decide, by decide⟩

/-! ### No program -/

theorem newWith_pc (font : Vector Byte 80) : (State.newWith font).pc = 0x200 := rfl

theorem fetchWord_newWith (font : Vector Byte 80) : (State.newWith font).fetchWord = 0x0000 := by
  have hhigh : (State.newWith font).mem.read 0x200 = 0 := read_newWith_of_le font (by decide)
  have hlow : (State.newWith font).mem.read 0x201 = 0 := read_newWith_of_le font (by decide)
  exact congrArg₂ joinBytes hhigh hlow

/-- Settles O57: the two bytes at 0x200 are zero, and 0x0000 is neither CLS nor RET. -/
theorem newCoreWithoutProgramFaults : Obligations.NewCoreWithoutProgramFaults := by
  intro font
  have hpc : (State.newWith font).pc.toNat ≤ 0x0FFE := by rw [newWith_pc]; decide
  have hdecode : decode (State.newWith font).fetchWord = .invalidOpcode 0x0000 := by
    rw [fetchWord_newWith]
    exact decode_eq_invalidOpcode.mpr ⟨rfl, .inl (by decide)⟩
  exact executeCycle_of_fetch_error (fetch_eq_error.mpr (.inr ⟨hpc, _, hdecode, rfl⟩))

/-! ### Loading a program -/

theorem loadProgram_of_gt (h : bytes.length > 3584) : loadProgram bytes s = .error (.programTooLarge bytes.length) :=
  if_pos h

/-- Settles O58: a load is one store at 0x200 that ends inside memory, or is refused. -/
theorem loadWritesTheProgramOnly : Obligations.LoadWritesTheProgramOnly := by
  intro bytes s hwf
  refine ⟨fun hlen => ⟨_, loadProgram_eq_ok.mpr ⟨hlen, rfl⟩, fun k hk => ?_, fun a ha => ?_, rfl, ?_⟩,
    loadProgram_of_gt⟩
  · exact (Memory.read_writeBytes_add hwf.sorted _ k bytes).trans (List.getD_eq_getElem _ _ hk)
  · exact Memory.read_writeBytes_outside hwf.sorted ha
  · exact Memory.wf_writeBytes hwf (by omega)

end Sys2Proof.Machine
end
